-- ==== Sys2Proof/Word.lean ====
section
/-! DEFINITION. The units of the machine (00_scope.md section 4.1): the 32-bit word, the byte, and the three kinds of
operation word the spec gives codes for (30_encoding.md rules R77 and R83). -/

namespace Sys2Proof

/-- A word: unsigned 32-bit value (00_scope.md section 4.1, glossary). Nothing in this hardware is signed. -/
abbrev Word := BitVec 32

/-- A byte: unsigned 8-bit value (00_scope.md section 4.1). -/
abbrev Byte := BitVec 8

/-- What selects an operation, as bits. The three kinds come from three different places and share no code space
(30_encoding.md rules R77 and R83). -/
inductive RawWord where
  /-- The one-bit `rst` port; 1 selects RESET (R77, R83). -/
  | rst (bit : BitVec 1)
  /-- The 65-bit command word `{start, len[63:0]}` (R77): `start` is bit 64, `len` bits 63 to 0.
  DEDUCED (log entry 10): the spec writes the word as a concatenation and numbers no bit of it. -/
  | cmd (bits : BitVec 65)
  /-- The 6-bit control word `CW = PH ‖ SUB`, `PH` bits 5 to 2, `SUB` bits 1 and 0 (R83). -/
  | cw (bits : BitVec 6)
  deriving DecidableEq, Repr

end Sys2Proof
end

