-- ==== Sys2Proof/Config.lean ====
section
/-! DEFINITION. The free values: what the spec leaves unspecified and this model therefore leaves without any value.
Each is a constant with no body, so nothing can be proved of what it is; a statement about it holds for every value.
The core has no configuration (00_scope.md rule R5), so nothing else stands here. The open parameters `REGMAP` and
`MSG_BASE` are not modelled: no rule depends on them (92_eei_decisions.md D13, log entry 15). -/

namespace Sys2Proof

/-- Words left in `H`, `S`, `W` by the `n`-th RESET, one per slot (10_state.md rule R38, 70_reset_and_hazards.md rule
R230, 93_implementation_defined.md U10: any value). DESIGN CHOICE, log entry 2. -/
opaque Config.freeWord (n slot : Nat) : BitVec 32

/-- Bytes left in `BLK` and `DIGEST` by the `n`-th RESET, one per slot (R38, R230, U10). DESIGN CHOICE, log entry 2. -/
opaque Config.freeByte (n slot : Nat) : BitVec 8

/-- `LEN` after the `n`-th RESET (R38, R230, U10). DESIGN CHOICE, log entry 2. -/
opaque Config.freeLen (n : Nat) : BitVec 64

/-- `NB` after the `n`-th RESET (R38, R230, U10). DESIGN CHOICE, log entry 2. -/
opaque Config.freeNB (n : Nat) : BitVec 56

/-- `BI` after the `n`-th RESET (R38, R230, U10). DESIGN CHOICE, log entry 2. -/
opaque Config.freeBI (n : Nat) : BitVec 56

/-- `T` after the `n`-th RESET (R38, R230, U10). DESIGN CHOICE, log entry 2. -/
opaque Config.freeT (n : Nat) : BitVec 7

/-- What the `k`-th word port `h0 .. h4` shows on host read number `read` outside `DONE` (10_state.md rule R34,
93_implementation_defined.md U9: any value). Log entry 13. -/
opaque Config.freeHPort (read k : Nat) : BitVec 32

/-- What byte `k` of the `digest` port shows on host read number `read` outside `DONE` (R34, U9: any value).
Log entry 13. -/
opaque Config.freeDigestPort (read k : Nat) : BitVec 8

end Sys2Proof
end

