-- ==== Sys2Proof/Machine/State.lean ====
section
/-! DEFINITION. The state of the machine: the eleven registers of 10_state.md rule R20, the message space the core reads
(20_memory.md rule R51), the host's port lines (30_encoding.md rule R77), and the reasons a step can stop. -/

namespace Sys2Proof.Machine

/-- The eleven phases of the sequencer (10_state.md rule R30), in the order of their codes 0 to 10 (30_encoding.md rule
R80). The reserved codes 11 to 15 cannot be written (R84, 93_implementation_defined.md U8; log entry 7). -/
inductive Phase where
  | idle | chk | frame | unpack | expand | load | round | accum | fmt | done | error
  deriving DecidableEq, Repr

/-- The running State `H[0..5)`: `H[0] = a` … `H[4] = e` (10_state.md rule R21). -/
structure HRegs where
  a : Word
  b : Word
  c : Word
  d : Word
  e : Word
  deriving DecidableEq, Repr

/-- The working registers `S[1..6)`: `S[1] = s1` … `S[5] = s5` (10_state.md rule R22). -/
structure SRegs where
  s1 : Word
  s2 : Word
  s3 : Word
  s4 : Word
  s5 : Word
  deriving DecidableEq, Repr

/-- A block: exactly 64 bytes (10_state.md rule R24). -/
abbrev Block := Vector Byte 64

/-- An expanded schedule: exactly 80 words (10_state.md rule R23). -/
abbrev Schedule := Vector Word 80

/-- A result string: exactly 40 characters, one byte each (10_state.md rule R25). -/
abbrev Digest := Vector Byte 40

/-- A message space (20_memory.md rule R51): (index, byte) pairs, indexes strictly rising and below 2^61, none holding
`00`; an index that is not listed holds `00` (log entry 4). -/
abbrev Memory := List Host.Cell

/-- The host's side of the interface, as the next step finds it (30_encoding.md rule R77; log entry 3). -/
structure Ports where
  /-- `rst`: 1 is the reset event (70_reset_and_hazards.md rule R230). -/
  rst : Bool
  /-- `start`: 1 is the command strobe START (45_transaction.md rule R171). -/
  start : Bool
  /-- `len[63:0]`: the operand of START. -/
  len : BitVec 64
  /-- The message the host presents with the command (45_transaction.md rule R171, 20_memory.md rule R62). -/
  msg : Memory
  deriving DecidableEq, Repr

/-- The state. Fields are named as in 10_state.md rule R20. -/
structure State where
  /-- `H[0..5)` (R21). -/
  h : HRegs
  /-- `S[1..6)` (R22). -/
  s : SRegs
  /-- `W[0..80)` (R23). -/
  w : Schedule
  /-- `BLK[0..64)` (R24). -/
  blk : Block
  /-- `DIGEST[0..40)` (R25). -/
  digest : Digest
  /-- `LEN` (R26). -/
  len : BitVec 64
  /-- `NB` (R27). -/
  nb : BitVec 56
  /-- `BI` (R28). -/
  bi : BitVec 56
  /-- `T` (R29). -/
  t : BitVec 7
  /-- `PH` (R30). -/
  ph : Phase
  /-- `ERR`, true = 1 = `LengthOverflow` (R31). -/
  err : Bool
  /-- The message space bound to the transaction, `MSG[0..LEN)` (20_memory.md rule R51). -/
  msg : Memory
  /-- The host's port lines (30_encoding.md rule R77). -/
  ports : Ports
  /-- The model's own counter of RESETs that have drawn free values (log entry 2). -/
  free : Nat
  deriving DecidableEq, Repr

/-- Why the machine stops with a fault. The hardware's own error, `LengthOverflow`, is not one: it is a next state
(60_exceptions.md rule R203). -/
inductive Fault where
  /-- A read of a message index `LEN` or above, which does not exist (20_memory.md rules R51, R57). Raised by
  FRAME.FULL, FRAME.FINAL and FRAME.FILL. Unreachable from reset. Safe: the model stops where the spec gives no byte. -/
  | messageIndexOutside
  deriving DecidableEq, Repr

/-- Why a step has no meaning: the states of 30_encoding.md rule R84 and 93_implementation_defined.md U8, which are
never reached from RESET and to which "The spec gives … no behaviour" (log entry 8). -/
inductive Refusal where
  /-- An operation without a meaning in this model: none. Safe. -/
  | notModelled (mnemonic : String)
  /-- `ERR = 1` outside `ERROR`, or `ERR = 0` in it (U8). Raised by the step before any operation but RESET. Safe. -/
  | errorFlag
  /-- `LEN >= 2^61` in a busy phase other than `CHK` (R84). Raised by the step and by FRAME.*. Safe. -/
  | lengthInBusy
  /-- `BI >= NB` in a block phase (R84). Raised by the step and by ACCUM. Safe. -/
  | blockIndex
  /-- Phase `FRAME` where no frame class applies (30_encoding.md rule R81), or a FRAME.* operation outside its class.
  Raised by the step, FRAME.FINAL, FRAME.FILL and FRAME.LEN. Safe. -/
  | frameClass
  /-- `T` outside the range the phase gives it (R84; 42_schedule.md rule R126, 43_compress.md rules R141 to R144).
  Raised by the step, EXPAND and ROUND.*. Safe. -/
  | indexT
  /-- A control word the decoder rejects (R84). No state has one, since `Phase` has no reserved code. Safe. -/
  | reservedWord
  deriving DecidableEq, Repr

/-- The machine right after RESET (10_state.md rule R38): `PH = IDLE`, `ERR = 0`. Every other register is unspecified
there and holds zero here (DESIGN CHOICE, log entry 1, unsafe); no port is raised and no message bound (log entries
3 and 4). -/
def State.reset : State where
  h := ⟨0, 0, 0, 0, 0⟩
  s := ⟨0, 0, 0, 0, 0⟩
  w := Vector.replicate 80 0
  blk := Vector.replicate 64 0
  digest := Vector.replicate 40 0
  len := 0
  nb := 0
  bi := 0
  t := 0
  ph := .idle
  err := false
  msg := []
  ports := { rst := false, start := false, len := 0, msg := [] }
  free := 0

end Sys2Proof.Machine
end

