-- ==== Sys2Proof/Machine/Operands.lean ====
section
/-! DEFINITION. The constants (00_scope.md rules R7, R8), the primitives (R9 to R14), the reads of the message space
(20_memory.md rule R52), and every operand as 30_encoding.md rule R86 assembles it. No operation has an operand field but
START, whose `len` the decoder reads. -/

namespace Sys2Proof.Machine

/-! ## Constants -/

/-- `IV` (00_scope.md rule R7). -/
def iv : HRegs := ⟨0x67452301#32, 0xEFCDAB89#32, 0x98BADCFE#32, 0x10325476#32, 0xC3D2E1F0#32⟩

/-- `K[0]`, rounds 0 to 19 (00_scope.md rule R8). -/
def k0 : Word := 0x5A827999#32

/-- `K[1]`, rounds 20 to 39 (R8). -/
def k1 : Word := 0x6ED9EBA1#32

/-- `K[2]`, rounds 40 to 59 (R8). -/
def k2 : Word := 0x8F1BBCDC#32

/-- `K[3]`, rounds 60 to 79 (R8). -/
def k3 : Word := 0xCA62C1D6#32

/-- `L_MAX + 1`: the first refused length, `2^61` bytes (00_scope.md rule R5). -/
def lengthLimit : Nat := 2 ^ 61

/-! ## Primitives -/

/-- `add32` (00_scope.md rule R9): the exact sum, reduced modulo 2^32 once at the end. -/
def add32 (xs : List Word) : Word := BitVec.ofNat 32 (xs.map BitVec.toNat).sum

/-- `rotl(x, n)` (00_scope.md rule R11). Its domain is `1 <= n <= 31`; outside it there is no rotation to ask for
(93_implementation_defined.md U1). The left shift drops the bits pushed past bit 31 (90_conflicts.md C6). -/
def rotl (x : Word) (n : Nat) (_domain : 1 ≤ n ∧ n ≤ 31 := by decide) : Word := (x <<< n) ||| (x >>> (32 - n))

/-- `be32` (00_scope.md rule R12): the first byte is the most significant. -/
def be32 (b0 b1 b2 b3 : Byte) : Word :=
  BitVec.ofNat 32 (b0.toNat * 2 ^ 24 + b1.toNat * 2 ^ 16 + b2.toNat * 2 ^ 8 + b3.toNat)

/-- Byte `i` of `be64bytes(v)` (00_scope.md rule R13): most significant byte first. -/
def be64byte (v i : Nat) : Byte := BitVec.ofNat 8 (v / 2 ^ (8 * (7 - i)))

/-- The byte that stands for `hexchar(v)` on the `digest` port (00_scope.md rule R14, 30_encoding.md rule R76): ASCII,
upper case (log entry 14). -/
def hexcode (v : BitVec 4) : Byte := if v.toNat ≤ 9 then BitVec.ofNat 8 (0x30 + v.toNat) else BitVec.ofNat 8 (0x37 + v.toNat)

/-- Nibble `n` of a word, most significant first: `x[31-4n : 28-4n]` (44_format.md rule R160). -/
def nibble (x : Word) (n : Nat) : BitVec 4 := x.extractLsb' (28 - 4 * n) 4

/-- `H[k]` for `k < 5` (10_state.md rule R21). -/
def HRegs.get (h : HRegs) (k : Fin 5) : Word :=
  match k with
  | 0 => h.a
  | 1 => h.b
  | 2 => h.c
  | 3 => h.d
  | 4 => h.e

/-! ## The message space -/

/-- The byte at an index of a message space; an index that is not listed holds `00` (log entry 4). -/
def Memory.read : Memory → Nat → Byte
  | [], _ => 0#8
  | (k, b) :: rest, a => if k = a then b else Memory.read rest a

/-- `MemRead(addr, 1)` (20_memory.md rule R52): the byte of an index below `L = LEN`; indexes `L` and above do not exist
(R51). A read never stalls and never fails inside the space (log entry 5). -/
def State.memRead (s : State) (addr : Nat) : Option Byte :=
  if addr < s.len.toNat then some (Memory.read s.msg addr) else none

/-- Every one of the `n` indexes from `base` exists. -/
def State.indexesExist (s : State) (base n : Nat) : Bool :=
  (List.range n).all fun k => (s.memRead (base + k)).isSome

/-! ## Lengths and counts -/

/-- Full-block count `q = L div 64` (30_encoding.md rule R86). -/
def fullBlocks (L : Nat) : Nat := L / 64

/-- Tail length `r = L mod 64` (R86). -/
def tailLength (L : Nat) : Nat := L % 64

/-- Bit length `L * 8`, exact (30_encoding.md rules R72, R86). -/
def bitLength (L : Nat) : Nat := L * 8

/-- The number of blocks `N(L)` (40_padder.md rule R101). -/
def blockCount (L : Nat) : Nat := if tailLength L ≤ 55 then fullBlocks L + 1 else fullBlocks L + 2

/-- The overflow test: `LEN >= 2^61`, on the length itself and not on a product (40_padder.md rule R103,
90_conflicts.md C7). -/
def State.lengthOverflows (s : State) : Bool := decide (lengthLimit ≤ s.len.toNat)

/-! ## The control word -/

/-- The 4-bit code of a phase (30_encoding.md rule R80). -/
def Phase.code : Phase → BitVec 4
  | .idle => 0
  | .chk => 1
  | .frame => 2
  | .unpack => 3
  | .expand => 4
  | .load => 5
  | .round => 6
  | .accum => 7
  | .fmt => 8
  | .done => 9
  | .error => 10

/-- The resting phases (10_state.md rule R30); the other eight are busy. -/
def Phase.resting : Phase → Bool
  | .idle | .done | .error => true
  | .chk | .frame | .unpack | .expand | .load | .round | .accum | .fmt => false

/-- The phases that work on a block, in which `BI < NB` (10_state.md rule R40 (d)). -/
def Phase.onBlock : Phase → Bool
  | .frame | .unpack | .expand | .load | .round | .accum => true
  | .idle | .chk | .fmt | .done | .error => false

/-- The frame class `FC` of block `j` of a message of `L` bytes (30_encoding.md rule R81); none where no row of the
table applies. -/
def frameClass (L j : Nat) : Option (BitVec 2) :=
  if j < fullBlocks L then some 0
  else if j = fullBlocks L ∧ tailLength L ≤ 55 then some 1
  else if j = fullBlocks L ∧ 56 ≤ tailLength L then some 2
  else if j = fullBlocks L + 1 ∧ 56 ≤ tailLength L then some 3
  else none

/-- The quarter `Q = T div 20` of a round index (30_encoding.md rule R82); none above 79. -/
def quarter (t : Nat) : Option (BitVec 2) := if t < 80 then some (BitVec.ofNat 2 (t / 20)) else none

/-- The control word `CW = PH ‖ SUB` (30_encoding.md rule R83). Where `FC` or `Q` does not exist there is none, and the
reason is one of the unreachable states of R84. -/
def State.controlWord (s : State) : Except Refusal (BitVec 6) :=
  match s.ph with
  | .frame =>
    match frameClass s.len.toNat s.bi.toNat with
    | some fc => .ok (s.ph.code ++ fc)
    | none => .error .frameClass
  | .round =>
    match quarter s.t.toNat with
    | some q => .ok (s.ph.code ++ q)
    | none => .error .indexT
  | .idle | .chk | .unpack | .expand | .load | .accum | .fmt | .done | .error => .ok (s.ph.code ++ 0#2)

end Sys2Proof.Machine
end

