-- ==== Sys2Proof/Machine/Function.lean ====
section
/-! DEFINITION. The pure functions of the five stages, as the spec states them before it cuts them into
micro-operations: block and PADDED (40_padder.md rules R101, R102; 30_encoding.md rule R70), unpack (41_unpack.md rule
R120), expand (42_schedule.md rule R125), round, compress and absorb (43_compress.md rules R135 to R147), format
(44_format.md rule R161), hash (45_transaction.md rule R170). -/

namespace Sys2Proof.Machine

/-! ## Padder/Framer -/

/-- A full block: message bytes `64*j` to `64*j + 63` (R102 first case, R104). -/
def fullBlock (m : Memory) (j : Nat) : Block := Vector.ofFn fun k => Memory.read m (64 * j + k.val)

/-- The final block holding the tail: `r` message bytes, `0x80`, zeros up to 56, the length field (R102 second case,
R105). -/
def finalBlock (m : Memory) (L : Nat) : Block := Vector.ofFn fun k =>
  if k.val < tailLength L then Memory.read m (64 * fullBlocks L + k.val)
  else if k.val = tailLength L then 0x80#8
  else if k.val < 56 then 0x00#8
  else be64byte (bitLength L) (k.val - 56)

/-- The fill block holding the tail: `r` message bytes, `0x80`, zeros (R102 third case, R106). -/
def fillBlock (m : Memory) (L : Nat) : Block := Vector.ofFn fun k =>
  if k.val < tailLength L then Memory.read m (64 * fullBlocks L + k.val)
  else if k.val = tailLength L then 0x80#8
  else 0x00#8

/-- The length block: 56 zeros, the length field (R102 fourth case, R107). -/
def lengthBlock (L : Nat) : Block := Vector.ofFn fun k =>
  if k.val < 56 then 0x00#8 else be64byte (bitLength L) (k.val - 56)

/-- `block(MSG, L, j)` (40_padder.md rule R102), defined for `j < N(L)` and `L < 2^61`. -/
def block (m : Memory) (L j : Nat) : Option Block :=
  if lengthLimit ≤ L then none
  else if j < fullBlocks L then some (fullBlock m j)
  else if j = fullBlocks L ∧ tailLength L ≤ 55 then some (finalBlock m L)
  else if j = fullBlocks L ∧ 56 ≤ tailLength L then some (fillBlock m L)
  else if j = fullBlocks L + 1 ∧ 56 ≤ tailLength L then some (lengthBlock L)
  else none

/-- The number `z` of zero bytes of the padding (30_encoding.md rule R70). -/
def zeroBytes (L : Nat) : Nat := if tailLength L ≤ 55 then 55 - tailLength L else 119 - tailLength L

/-- Byte `p` of `PADDED`, by the layout table of 30_encoding.md rule R70: the message, `0x80`, `z` zeros, the bit
length. -/
def paddedByte (m : Memory) (L p : Nat) : Byte :=
  if p < L then Memory.read m p
  else if p = L then 0x80#8
  else if p < L + 1 + zeroBytes L then 0x00#8
  else be64byte (bitLength L) (p - (L + 1 + zeroBytes L))

/-! ## Word Packer -/

/-- `unpack(B)` (41_unpack.md rule R120). -/
def unpack (b : Block) : Vector Word 16 := Vector.ofFn fun i => be32 b[4 * i.val] b[4 * i.val + 1] b[4 * i.val + 2] b[4 * i.val + 3]

/-! ## Schedule Expander -/

/-- The recurrence at index `t` (42_schedule.md rules R125, R126): exclusive-or of four taps, then one rotation. -/
def scheduleWord (w : Schedule) (t : Nat) (h : 16 ≤ t ∧ t < 80) : Word :=
  rotl (w[t - 3] ^^^ w[t - 8] ^^^ w[t - 14] ^^^ w[t - 16]) 1

/-- A schedule whose first sixteen words are a Word block; the others are those of `w` (41_unpack.md rule R121). -/
def withWordBlock (w : Schedule) (x : Vector Word 16) : Schedule :=
  Vector.ofFn fun i => if h : i.val < 16 then x[i.val] else w[i.val]

/-- The recurrence applied in rising order to the first `n` indexes from 16 on. -/
def expandFirst (w : Schedule) : Nat → Schedule
  | 0 => w
  | n + 1 => if h : n < 64 then (expandFirst w n).set (16 + n) (scheduleWord (expandFirst w n) (16 + n) (by omega)) else expandFirst w n

/-- `expand(X)` (42_schedule.md rule R125). -/
def expand (x : Vector Word 16) : Schedule := expandFirst (withWordBlock (Vector.replicate 80 0) x) 64

/-! ## Compressor and state accumulator -/

/-- Choose (43_compress.md rule R135). -/
def fCh (b c d : Word) : Word := (b &&& c) ||| (~~~b &&& d)

/-- Parity (43_compress.md rule R136). -/
def fPar (b c d : Word) : Word := b ^^^ c ^^^ d

/-- Majority (43_compress.md rule R137). -/
def fMaj (b c d : Word) : Word := (b &&& c) ||| (b &&& d) ||| (c &&& d)

/-- The body of a round with logical function `f` and constant `k` (43_compress.md rule R140): every value on the right
is from before the round. -/
def roundWith (f : Word → Word → Word → Word) (k : Word) (s : SRegs) (w : Word) : SRegs :=
  { s1 := add32 [rotl s.s1 5, f s.s2 s.s3 s.s4, s.s5, w, k]
    s2 := s.s1
    s3 := rotl s.s2 30
    s4 := s.s3
    s5 := s.s4 }

/-- `round(s, t, w)` for `t < 80` (43_compress.md rules R138, R140): quarter `t div 20` picks function and constant. -/
def round (s : SRegs) (t : Nat) (w : Word) : SRegs :=
  if t < 20 then roundWith fCh k0 s w
  else if t < 40 then roundWith fPar k1 s w
  else if t < 60 then roundWith fMaj k2 s w
  else roundWith fPar k3 s w

/-- The first `n` rounds over a schedule (43_compress.md rule R145), `n <= 80`. -/
def roundsFirst (s : SRegs) (y : Schedule) : Nat → SRegs
  | 0 => s
  | n + 1 => if h : n < 80 then round (roundsFirst s y n) n y[n] else roundsFirst s y n

/-- The working registers initialised from a State: `s1 = a` … `s5 = e` (43_compress.md rules R139, R145). -/
def HRegs.toWorking (h : HRegs) : SRegs := ⟨h.a, h.b, h.c, h.d, h.e⟩

/-- `compress(h, y)` (43_compress.md rule R145): 80 rounds, no accumulation. -/
def compress (h : HRegs) (y : Schedule) : SRegs := roundsFirst h.toWorking y 80

/-- Component-wise addition, each sum on its own modulo 2^32 (43_compress.md rules R146, R147). -/
def HRegs.accumulate (h : HRegs) (s : SRegs) : HRegs :=
  ⟨add32 [h.a, s.s1], add32 [h.b, s.s2], add32 [h.c, s.s3], add32 [h.d, s.s4], add32 [h.e, s.s5]⟩

/-- `absorb(h, B)` (43_compress.md rule R147). -/
def absorb (h : HRegs) (b : Block) : HRegs := h.accumulate (compress h (expand (unpack b)))

/-- The State after the first `n` blocks of a message, from `IV` (43_compress.md rule R148, 45_transaction.md rule
R170). -/
def absorbFirst (m : Memory) (L : Nat) : Nat → HRegs
  | 0 => iv
  | n + 1 =>
    match block m L n with
    | some b => absorb (absorbFirst m L n) b
    | none => absorbFirst m L n

/-! ## Formatter and the whole function -/

/-- `format(h)` (44_format.md rule R161) in the byte codes of 30_encoding.md rule R76: character `8k + n` is nibble `n` of
`H[k]`. -/
def format (h : HRegs) : Digest :=
  Vector.ofFn fun i => hexcode (nibble (h.get ⟨i.val / 8, by omega⟩) (i.val % 8))

/-- The result of `hash`: the source's `Result<digest, Error>` with its one error (45_transaction.md rule R170). -/
inductive HashResult where
  | ok (digest : Digest)
  | lengthOverflow
  deriving DecidableEq, Repr

/-- `hash(MSG, L)` (45_transaction.md rule R170). -/
def hash (m : Memory) (L : Nat) : HashResult :=
  if lengthLimit ≤ L then .lengthOverflow else .ok (format (absorbFirst m L (blockCount L)))

end Sys2Proof.Machine
end

