-- ==== Sys2Proof/Machine/Ops.lean ====
section
/-! DEFINITION. The named operations the meanings share: the message space as the host writes it down, the sampling of the
port lines, taking the one exception and leaving it, the shapes of the FRAME and ROUND families, the unspecified
registers after RESET, and the states the spec gives no behaviour. -/

namespace Sys2Proof.Machine

/-- What a meaning or a step answers. -/
abbrev Outcome := Host.Outcome State Fault Refusal

/-! ## The message space -/

/-- The byte at an index of a message, set. Only the host writes messages: `MemWrite` is never used by the core
(20_memory.md rule R50). Keeps the canonical form: writing `00` removes the entry. -/
def Memory.write : Memory → BitVec 61 → Byte → Memory
  | [], a, b => if b = 0#8 then [] else [(a.toNat, b)]
  | (k, c) :: rest, a, b =>
    if a.toNat < k then (if b = 0#8 then (k, c) :: rest else (a.toNat, b) :: (k, c) :: rest)
    else if a.toNat = k then (if b = 0#8 then rest else (a.toNat, b) :: rest)
    else (k, c) :: Memory.write rest a b

/-- The message space holding a byte sequence from index `base` on, over an existing one. -/
def Memory.writeBytes (m : Memory) (base : Nat) : List Byte → Memory
  | [] => m
  | b :: rest => Memory.writeBytes (Memory.write m (BitVec.ofNat 61 base) b) (base + 1) rest

/-- The message space of a byte sequence, index 0 first (20_memory.md rule R51). -/
def Memory.ofBytes (bytes : List Byte) : Memory := Memory.writeBytes [] 0 bytes

/-- The canonical form from index `lo` on. -/
def Memory.wfFrom (lo : Nat) : Memory → Bool
  | [] => true
  | (k, b) :: rest => decide (lo ≤ k) && decide (k < 2 ^ 61) && decide (b ≠ 0#8) && Memory.wfFrom (k + 1) rest

/-- The canonical form of a message space: indexes strictly rising and below 2^61 (20_memory.md rule R51), no entry equal
to what an unlisted index holds. -/
def Memory.wf (m : Memory) : Bool := Memory.wfFrom 0 m

/-! ## The port lines -/

/-- The strobes `rst` and `start` sampled by this step are gone for the next one (30_encoding.md rule R77: an event and a
command strobe; log entry 3). -/
def State.consume (s : State) : State := { s with ports := { s.ports with rst := false, start := false } }

/-- The host's command lines as one command word `{start, len}` (30_encoding.md rule R77). -/
def Ports.command (p : Ports) : BitVec 65 := BitVec.ofBool p.start ++ p.len

/-! ## The exception and its end -/

/-- `raise LengthOverflow` (60_exceptions.md rule R203): `ERR <- 1`, `PH <- ERROR`, nothing else; nothing is saved. -/
def State.raiseLengthOverflow (s : State) : State := { s with err := true, ph := .error }

/-- The start of a transaction (45_transaction.md rule R171), which is also the only way but RESET out of `ERROR` (rule
R204: there is no return-from-trap operation): `LEN <- len`, `ERR <- 0`, `PH <- CHK`, and the message the host presents
is the transaction's (R171 operands, 20_memory.md rule R62 (a); log entry 4). -/
def State.beginTransaction (s : State) (len : BitVec 64) : State :=
  { s with len := len, err := false, ph := .chk, msg := s.ports.msg }

/-- RESET (70_reset_and_hazards.md rule R230): `PH <- IDLE`, `ERR <- 0`; every other register becomes unspecified
(10_state.md rule R38), here a free value of its own for each RESET (log entry 2). The message and the port lines are no
registers of the core and stay. -/
def State.toReset (s : State) : State :=
  { s with
    h := ⟨Config.freeWord s.free 0, Config.freeWord s.free 1, Config.freeWord s.free 2, Config.freeWord s.free 3,
      Config.freeWord s.free 4⟩
    s := ⟨Config.freeWord s.free 5, Config.freeWord s.free 6, Config.freeWord s.free 7, Config.freeWord s.free 8,
      Config.freeWord s.free 9⟩
    w := Vector.ofFn fun i => Config.freeWord s.free (10 + i.val)
    blk := Vector.ofFn fun i => Config.freeByte s.free i.val
    digest := Vector.ofFn fun i => Config.freeByte s.free (64 + i.val)
    len := Config.freeLen s.free
    nb := Config.freeNB s.free
    bi := Config.freeBI s.free
    t := Config.freeT s.free
    ph := .idle
    err := false
    free := s.free + 1 }

/-! ## Shapes of the families -/

/-- The end of every FRAME.* operation: the whole of `BLK` is written and `PH <- UNPACK` (40_padder.md rules R104 to
R107). -/
def State.leaveFrame (s : State) (b : Block) : State := { s with blk := b, ph := .unpack }

/-- A FRAME.* operation that reads `n` message bytes from index `base`: refused for a length that `CHK` would not have
let pass (30_encoding.md rule R84), a fault where an index does not exist (20_memory.md rule R51), else the block `b`. -/
def frameReading (base n : Nat) (b : Block) (s : State) : Outcome :=
  if s.lengthOverflows then .refused .lengthInBusy
  else if s.indexesExist base n then .next (s.leaveFrame b)
  else .fault .messageIndexOutside

/-- A ROUND.* operation for the round indexes `lo <= T < lo + 20`, with logical function `f` and constant `k`
(43_compress.md, the common template of rules R141 to R144). -/
def roundStep (lo : Nat) (f : Word → Word → Word → Word) (k : Word) (s : State) : Outcome :=
  if h : lo ≤ s.t.toNat ∧ s.t.toNat < lo + 20 ∧ s.t.toNat < 80 then
    .next { s with
      s := roundWith f k s.s (s.w[s.t.toNat]'h.2.2)
      t := s.t + 1
      ph := if s.t.toNat + 1 = 80 then .accum else .round }
  else .refused .indexT

/-! ## States without behaviour -/

/-- Whether `T` has been written since the last RESET in every run that comes to this state, so that its values 81 to 127
are states that are never reached (10_state.md rule R29, 30_encoding.md rule R84). UNPACK writes it first (45_transaction.md
rule R176): not so in `IDLE`, `CHK` and `ERROR`, nor in `FRAME` and `UNPACK` of block 0, where `T` may still be what RESET
left (10_state.md rule R38; log entry 8). -/
def State.indexLive (s : State) : Bool :=
  match s.ph with
  | .idle | .chk | .error => false
  | .frame | .unpack => decide (s.bi ≠ 0#56)
  | .expand | .load | .round | .accum | .fmt | .done => true

/-- The refusal of a state that 30_encoding.md rule R84 or 93_implementation_defined.md U8 names as never reached, where
no operation of its own would see it (log entry 8). Not asked in front of RESET, which acts in every state
(70_reset_and_hazards.md rule R230). -/
def State.unreachable (s : State) : Option Refusal :=
  if s.err ≠ decide (s.ph = .error) then some .errorFlag
  else if !s.ph.resting && decide (s.ph ≠ .chk) && s.lengthOverflows then some .lengthInBusy
  else if s.ph.onBlock && decide (s.nb.toNat ≤ s.bi.toNat) then some .blockIndex
  else if s.indexLive && decide (80 < s.t.toNat) then some .indexT
  else none

end Sys2Proof.Machine
end

