-- ==== Sys2Proof/Machine/Compress.lean ====
section
/-! DEFINITION. The Compressor and the state accumulator: LOAD, ROUND.CH, ROUND.PAR1, ROUND.MAJ, ROUND.PAR2, ACCUM
(43_compress.md). -/

namespace Sys2Proof.Machine

/-- LOAD (43_compress.md rule R139). -/
def execLoad (s : State) : Outcome := .next { s with s := s.h.toWorking, t := 0, ph := .round }

/-- ROUND.CH (43_compress.md rule R141): `0 <= T <= 19`. -/
def execRoundCh (s : State) : Outcome := roundStep 0 fCh k0 s

/-- ROUND.PAR1 (43_compress.md rule R142): `20 <= T <= 39`. -/
def execRoundPar1 (s : State) : Outcome := roundStep 20 fPar k1 s

/-- ROUND.MAJ (43_compress.md rule R143): `40 <= T <= 59`. -/
def execRoundMaj (s : State) : Outcome := roundStep 40 fMaj k2 s

/-- ROUND.PAR2 (43_compress.md rule R144): `60 <= T <= 79`. -/
def execRoundPar2 (s : State) : Outcome := roundStep 60 fPar k3 s

/-- ACCUM (43_compress.md rule R146). `BI` never wraps, because `BI < NB` in a block phase (10_state.md rule R28,
30_encoding.md rule R84). -/
def execAccum (s : State) : Outcome :=
  if s.bi.toNat < s.nb.toNat then
    .next { s with
      h := s.h.accumulate s.s
      bi := s.bi + 1
      ph := if s.bi.toNat + 1 = s.nb.toNat then .fmt else .frame }
  else .refused .blockIndex

end Sys2Proof.Machine
end

