-- ==== Sys2Proof/Machine/Padder.lean ====
section
/-! DEFINITION. The Padder/Framer: CHK, FRAME.FULL, FRAME.FINAL, FRAME.FILL, FRAME.LEN (40_padder.md). -/

namespace Sys2Proof.Machine

/-- CHK (40_padder.md rule R103): the overflow test comes before every other effect. -/
def execChk (s : State) : Outcome :=
  if s.lengthOverflows then .next s.raiseLengthOverflow
  else .next { s with h := iv, nb := BitVec.ofNat 56 (blockCount s.len.toNat), bi := 0, ph := .frame }

/-- FRAME.FULL (40_padder.md rule R104). Its 64 indexes exist exactly when `BI < LEN div 64`, its class. -/
def execFrameFull (s : State) : Outcome :=
  frameReading (64 * s.bi.toNat) 64 (fullBlock s.msg s.bi.toNat) s

/-- FRAME.FINAL (40_padder.md rule R105), for `BI = LEN div 64` and `LEN mod 64 <= 55`. -/
def execFrameFinal (s : State) : Outcome :=
  if s.bi.toNat = fullBlocks s.len.toNat ∧ tailLength s.len.toNat ≤ 55 then
    frameReading (64 * s.bi.toNat) (tailLength s.len.toNat) (finalBlock s.msg s.len.toNat) s
  else .refused .frameClass

/-- FRAME.FILL (40_padder.md rule R106), for `BI = LEN div 64` and `LEN mod 64 >= 56`. -/
def execFrameFill (s : State) : Outcome :=
  if s.bi.toNat = fullBlocks s.len.toNat ∧ 56 ≤ tailLength s.len.toNat then
    frameReading (64 * s.bi.toNat) (tailLength s.len.toNat) (fillBlock s.msg s.len.toNat) s
  else .refused .frameClass

/-- FRAME.LEN (40_padder.md rule R107), for `BI = LEN div 64 + 1` and `LEN mod 64 >= 56`. No message byte is read. -/
def execFrameLen (s : State) : Outcome :=
  if s.bi.toNat = fullBlocks s.len.toNat + 1 ∧ 56 ≤ tailLength s.len.toNat then
    frameReading (64 * s.bi.toNat) 0 (lengthBlock s.len.toNat) s
  else .refused .frameClass

end Sys2Proof.Machine
end

