-- ==== Sys2Proof/Machine/Schedule.lean ====
section
/-! DEFINITION. The Word Packer and the Schedule Expander: UNPACK (41_unpack.md), EXPAND (42_schedule.md). -/

namespace Sys2Proof.Machine

/-- UNPACK (41_unpack.md rule R121): `W[16..80)` are not touched. -/
def execUnpack (s : State) : Outcome :=
  .next { s with w := withWordBlock s.w (unpack s.blk), t := 16, ph := .expand }

/-- EXPAND (42_schedule.md rule R126), for `16 <= T <= 79`. -/
def execExpand (s : State) : Outcome :=
  if h : 16 ≤ s.t.toNat ∧ s.t.toNat < 80 then
    .next { s with
      w := s.w.set s.t.toNat (scheduleWord s.w s.t.toNat h) h.2
      t := s.t + 1
      ph := if s.t.toNat + 1 = 80 then .load else .expand }
  else .refused .indexT

end Sys2Proof.Machine
end

