-- ==== Sys2Proof/Machine/Transaction.lean ====
section
/-! DEFINITION. The Formatter's FMT (44_format.md) and the operations of the transaction: RESET (70_reset_and_hazards.md),
START and HOLD (45_transaction.md). -/

namespace Sys2Proof.Machine

/-- RESET (70_reset_and_hazards.md rule R230), in any phase. -/
def execReset (s : State) : Outcome := .next s.toReset

/-- START (45_transaction.md rule R171): accepted in `IDLE`, `DONE` and `ERROR`; in a busy phase the command is ignored
and nothing changes (R180). -/
def execStart (len : BitVec 64) (s : State) : Outcome :=
  if s.ph.resting then .next (s.beginTransaction len) else .next s

/-- FMT (44_format.md rule R162): all forty bytes and the phase in one step. -/
def execFmt (s : State) : Outcome := .next { s with digest := format s.h, ph := .done }

/-- HOLD in `IDLE` (45_transaction.md rule R172): nothing is written. -/
def execHoldIdle (s : State) : Outcome := .next s

/-- HOLD in `DONE` (45_transaction.md rule R172): nothing is written; the result stays readable. -/
def execHoldDone (s : State) : Outcome := .next s

/-- HOLD in `ERROR` (45_transaction.md rule R172): nothing is written; `ERR` stays 1. -/
def execHoldError (s : State) : Outcome := .next s

end Sys2Proof.Machine
end

