-- ==== Sys2Proof/Syntax.lean ====
section
/-! DEFINITION. The operations of the core: one constructor per row of spec/opcode_table.json (30_encoding.md rules R77
and R83). The table has three rows for HOLD, one per encoding (90_conflicts.md C10), and so three constructors stand for
it (log entry 18). No operation but START has an operand field (R86). -/

namespace Sys2Proof

/-- The 19 rows of the operation table, in the table's order. -/
inductive Instr where
  /-- `RESET` (70_reset_and_hazards.md rule R230): selected by `rst = 1`. -/
  | reset
  /-- `START` (45_transaction.md rule R171): command word `{start, len[63:0]}` with `start = 1`. -/
  | start (len : BitVec 64)
  /-- `HOLD` in `IDLE` (45_transaction.md rule R172): CW `0000 xx`. -/
  | holdIdle
  /-- `CHK` (40_padder.md rule R103): CW `0001 xx`. -/
  | chk
  /-- `FRAME.FULL` (40_padder.md rule R104): CW `0010 00`. -/
  | frameFull
  /-- `FRAME.FINAL` (40_padder.md rule R105): CW `0010 01`. -/
  | frameFinal
  /-- `FRAME.FILL` (40_padder.md rule R106): CW `0010 10`. -/
  | frameFill
  /-- `FRAME.LEN` (40_padder.md rule R107): CW `0010 11`. -/
  | frameLen
  /-- `UNPACK` (41_unpack.md rule R121): CW `0011 xx`. -/
  | unpack
  /-- `EXPAND` (42_schedule.md rule R126): CW `0100 xx`. -/
  | expand
  /-- `LOAD` (43_compress.md rule R139): CW `0101 xx`. -/
  | load
  /-- `ROUND.CH` (43_compress.md rule R141): CW `0110 00`. -/
  | roundCh
  /-- `ROUND.PAR1` (43_compress.md rule R142): CW `0110 01`. -/
  | roundPar1
  /-- `ROUND.MAJ` (43_compress.md rule R143): CW `0110 10`. -/
  | roundMaj
  /-- `ROUND.PAR2` (43_compress.md rule R144): CW `0110 11`. -/
  | roundPar2
  /-- `ACCUM` (43_compress.md rule R146): CW `0111 xx`. -/
  | accum
  /-- `FMT` (44_format.md rule R162): CW `1000 xx`. -/
  | fmt
  /-- `HOLD` in `DONE` (45_transaction.md rule R172): CW `1001 xx`. -/
  | holdDone
  /-- `HOLD` in `ERROR` (45_transaction.md rule R172): CW `1010 xx`. -/
  | holdError
  deriving DecidableEq, Repr

end Sys2Proof
end

