-- ==== Sys2Proof/Machine/Dispatch.lean ====
section
/-! DEFINITION. One arm per operation: the meaning it has. -/

namespace Sys2Proof.Machine

def exec (i : Instr) (s : State) : Host.Outcome State Fault Refusal :=
  match i with
  | .reset => Sys2Proof.Machine.execReset s
  | .start len => Sys2Proof.Machine.execStart len s
  | .holdIdle => Sys2Proof.Machine.execHoldIdle s
  | .chk => Sys2Proof.Machine.execChk s
  | .frameFull => Sys2Proof.Machine.execFrameFull s
  | .frameFinal => Sys2Proof.Machine.execFrameFinal s
  | .frameFill => Sys2Proof.Machine.execFrameFill s
  | .frameLen => Sys2Proof.Machine.execFrameLen s
  | .unpack => Sys2Proof.Machine.execUnpack s
  | .expand => Sys2Proof.Machine.execExpand s
  | .load => Sys2Proof.Machine.execLoad s
  | .roundCh => Sys2Proof.Machine.execRoundCh s
  | .roundPar1 => Sys2Proof.Machine.execRoundPar1 s
  | .roundMaj => Sys2Proof.Machine.execRoundMaj s
  | .roundPar2 => Sys2Proof.Machine.execRoundPar2 s
  | .accum => Sys2Proof.Machine.execAccum s
  | .fmt => Sys2Proof.Machine.execFmt s
  | .holdDone => Sys2Proof.Machine.execHoldDone s
  | .holdError => Sys2Proof.Machine.execHoldError s

end Sys2Proof.Machine
end

