-- ==== Sys2Proof/WellFormed.lean ====
section
/-! DEFINITION. Well-formedness. Every term of `Instr` is well-formed: the one operand, `len`, is a 64-bit value and
"All 64 bits are significant" (10_state.md rule R26), so there is nothing for a check on `Instr` to refuse. What can be
ill-formed is an operation word: the checks below say which words select an operation at all (30_encoding.md rules R77,
R83 and R84). -/

namespace Sys2Proof

/-- An operation word selects an operation: `rst = 1`; `start = 1` (`start = 0` is "no command", R77); a control word
whose phase code is one of 0 to 10 (codes 11 to 15 are reserved, R84). -/
def RawWord.wellFormed : RawWord → Bool
  | .rst bit => bit == 1#1
  | .cmd bits => bits.getLsbD 64
  | .cw bits => decide (bits.toNat / 4 ≤ 10)

/-- An operation word as the core and the host form it: well-formed, and with `SUB = 0` in every phase other than
`FRAME` (code 2) and `ROUND` (code 6) (R83). -/
def RawWord.canonical : RawWord → Bool
  | .rst bit => bit == 1#1
  | .cmd bits => bits.getLsbD 64
  | .cw bits =>
    decide (bits.toNat / 4 ≤ 10) && (bits.toNat / 4 == 2 || bits.toNat / 4 == 6 || bits.toNat % 4 == 0)

/-- Every instruction is well-formed: no term of `Instr` holds a value its encoding cannot carry (R26, R86). -/
def Instr.wellFormed : Instr → Bool
  | .reset | .start _ | .holdIdle | .chk | .frameFull | .frameFinal | .frameFill | .frameLen | .unpack | .expand
  | .load | .roundCh | .roundPar1 | .roundMaj | .roundPar2 | .accum | .fmt | .holdDone | .holdError => true

end Sys2Proof
end

