-- ==== Sys2Proof/Decode.lean ====
section
/-! DEFINITION. The decoder, total on every operation word and rejecting by name, and after it the encoder, each written
from the operation map of 30_encoding.md rule R83 (spec/opcode_table.json repeats it with `match` and `mask`). -/

namespace Sys2Proof

/-- Why a word selects no operation. -/
inductive DecodeError where
  /-- `rst = 0`: no reset (R77). -/
  | noReset
  /-- `start = 0`: "no command" (R77). -/
  | noCommand
  /-- A reserved phase code, 11 to 15 (R80, R84). -/
  | reservedPhase (code : BitVec 4)
  deriving DecidableEq, Repr

/-- The operation a control word selects, from its phase code `ph = CW[5:2]` and `sub = CW[1:0]` (R83). Where the map
writes `xx` the two low bits are ignored (log entry 17). -/
def decodeControl (ph : BitVec 4) (sub : BitVec 2) : Except DecodeError Instr :=
  match ph.toNat with
  | 0 => .ok .holdIdle
  | 1 => .ok .chk
  | 2 =>
    match sub.toNat with
    | 0 => .ok .frameFull
    | 1 => .ok .frameFinal
    | 2 => .ok .frameFill
    | _ => .ok .frameLen
  | 3 => .ok .unpack
  | 4 => .ok .expand
  | 5 => .ok .load
  | 6 =>
    match sub.toNat with
    | 0 => .ok .roundCh
    | 1 => .ok .roundPar1
    | 2 => .ok .roundMaj
    | _ => .ok .roundPar2
  | 7 => .ok .accum
  | 8 => .ok .fmt
  | 9 => .ok .holdDone
  | 10 => .ok .holdError
  | _ => .error (.reservedPhase ph)

/-- The operation a word selects (R77, R83, R84). -/
def decode : RawWord → Except DecodeError Instr
  | .rst bit => if bit = 1#1 then .ok .reset else .error .noReset
  | .cmd bits =>
    if bits.extractLsb' 64 1 = 1#1 then .ok (.start (bits.extractLsb' 0 64)) else .error .noCommand
  | .cw bits => decodeControl (bits.extractLsb' 2 4) (bits.extractLsb' 0 2)

/-- The word of an instruction (R77, R83): `match` of its row of the table; `SUB = 0` where the row ignores it, as
`CW` itself has it (R83). -/
def encode : Instr → RawWord
  | .reset => .rst 1#1
  | .start len => .cmd (1#1 ++ len)
  | .holdIdle => .cw 0x00#6
  | .chk => .cw 0x04#6
  | .frameFull => .cw 0x08#6
  | .frameFinal => .cw 0x09#6
  | .frameFill => .cw 0x0A#6
  | .frameLen => .cw 0x0B#6
  | .unpack => .cw 0x0C#6
  | .expand => .cw 0x10#6
  | .load => .cw 0x14#6
  | .roundCh => .cw 0x18#6
  | .roundPar1 => .cw 0x19#6
  | .roundMaj => .cw 0x1A#6
  | .roundPar2 => .cw 0x1B#6
  | .accum => .cw 0x1C#6
  | .fmt => .cw 0x20#6
  | .holdDone => .cw 0x24#6
  | .holdError => .cw 0x28#6

/-- The `mask` of an instruction's row of the map (R83): which bits of a control word its row reads. A host word is
read whole. -/
def Instr.mask : Instr → BitVec 6
  | .frameFull | .frameFinal | .frameFill | .frameLen | .roundCh | .roundPar1 | .roundMaj | .roundPar2 => 0x3F#6
  | .reset | .start _ | .holdIdle | .chk | .unpack | .expand | .load | .accum | .fmt | .holdDone | .holdError => 0x3C#6

/-- A word with the bits that `i`'s row ignores cleared; a host word is left as it is. -/
def RawWord.under (w : RawWord) (i : Instr) : RawWord :=
  match w with
  | .cw bits => .cw (bits &&& i.mask)
  | .rst bit => .rst bit
  | .cmd bits => .cmd bits

/-- What the decoder answers, with the reason for a rejection forgotten. -/
def decode? (w : RawWord) : Option Instr :=
  match decode w with
  | .ok i => some i
  | .error _ => none

/-- The instruction read from table bits `w` (bit 0 is the table's bit 0). The table's 19 rows come from three code
spaces that share the low byte, so the number alone does not say which port it stands on (log entry 11, DESIGN CHOICE).
In a row of up to 8 bits, 1 is a raised one-bit port: `rst` and `start` have the same row bits, and "RESET has priority
over everything" (70_reset_and_hazards.md rule R231), so it reads as RESET; any other value is a control word. With
more than 8 bits it is the command word, `start` at bit 0 and `len` in the 64 bits above it. -/
def decodeTableWord (nbits w : Nat) : Option Instr :=
  if nbits ≤ 8 then
    if w = 1 then decode? (.rst 1#1)
    else if w < 64 then decode? (.cw (BitVec.ofNat 6 w))
    else none
  else if w < 2 ^ 65 then
    decode? (.cmd (BitVec.ofNat 1 w ++ BitVec.ofNat 64 (w / 2)))
  else none

end Sys2Proof
end

