-- ==== Sys2Proof/Machine/Fetch.lean ====
section
/-! DEFINITION. Which operation the next step performs (30_encoding.md rule R83, 45_transaction.md rule R175,
70_reset_and_hazards.md rule R231), and the state in which a given operation is the next one. The core has no program
counter and fetches nothing from memory (10_state.md rule R32): the operation comes from the port lines or from the
control word. -/

namespace Sys2Proof.Machine

/-- The operation word of the next step. `rst` comes before everything (70_reset_and_hazards.md rule R231). A state that
is never reached is refused (30_encoding.md rule R84). START is performed in a resting phase, where the core's own step
would change nothing (60_exceptions.md rule R206 (c)); in a busy phase it is ignored and the core's own operation is
performed (R206 (b)). Otherwise the control word selects. -/
def State.operationWord (s : State) : Except Refusal RawWord :=
  if s.ports.rst then .ok (.rst 1#1)
  else
    match s.unreachable with
    | some r => .error r
    | none =>
      if s.ports.start && s.ph.resting then .ok (.cmd s.ports.command)
      else
        match s.controlWord with
        | .ok w => .ok (.cw w)
        | .error r => .error r

/-- The operation of the next step. -/
def State.fetch (s : State) : Except Refusal Instr :=
  match s.operationWord with
  | .error r => .error r
  | .ok w =>
    match decode w with
    | .ok i => .ok i
    | .error _ => .error .reservedWord

/-- A block phase: block `bi` of a message of `len` bytes is being worked on, `t` is the index. -/
def State.inBlock (s : State) (ph : Phase) (len : BitVec 64) (bi : BitVec 56) (t : BitVec 7) : State :=
  { s.consume with ph := ph, err := false, len := len, nb := BitVec.ofNat 56 (blockCount len.toNat), bi := bi, t := t }

/-- A state in which `i` is the operation of the next step: the least that the selection needs is set (the port line, or
the phase with the registers that `FC`, `Q` and rule R40 of 10_state.md read), all else is left (log entry 12). -/
def State.selecting (s : State) (i : Instr) : State :=
  match i with
  | .reset => { s.consume with ports := { s.ports with rst := true, start := false } }
  | .start len => { s.consume with ph := .idle, err := false, ports := { s.ports with rst := false, start := true, len := len } }
  | .holdIdle => { s.consume with ph := .idle, err := false }
  | .chk => { s.consume with ph := .chk, err := false }
  | .frameFull => s.inBlock .frame 64 0 s.t
  | .frameFinal => s.inBlock .frame 0 0 s.t
  | .frameFill => s.inBlock .frame 56 0 s.t
  | .frameLen => s.inBlock .frame 56 1 80
  | .unpack => s.inBlock .unpack 0 0 s.t
  | .expand => s.inBlock .expand 0 0 16
  | .load => s.inBlock .load 0 0 80
  | .roundCh => s.inBlock .round 0 0 0
  | .roundPar1 => s.inBlock .round 0 0 20
  | .roundMaj => s.inBlock .round 0 0 40
  | .roundPar2 => s.inBlock .round 0 0 60
  | .accum => s.inBlock .accum 0 0 80
  | .fmt => s.inBlock .fmt 0 1 80
  | .holdDone => { s.consume with ph := .done, err := false, t := 80 }
  | .holdError => { s.consume with ph := .error, err := true }

end Sys2Proof.Machine
end

