-- ==== Sys2Proof/Machine/Step.lean ====
section
/-! DEFINITION. One step of the machine: the operation that the port lines or the control word select is performed
(45_transaction.md rule R175); the strobes the step has sampled are gone. -/

namespace Sys2Proof.Machine

/-- One step (45_transaction.md rule R175). -/
def step (s : State) : Host.Outcome State Fault Refusal :=
  match s.fetch with
  | .error r => .refused r
  | .ok i => exec i s.consume

/-- The state `s` with the operation that the table bits `w` encode placed where the next step finds it: on its port
line, or as the phase and counters that form its control word (log entry 12). Bits that select nothing change nothing. -/
def State.withFetchWord (s : State) (nbits w : Nat) : State :=
  match decodeTableWord nbits w with
  | some i => s.selecting i
  | none => s

end Sys2Proof.Machine
end

