-- ==== Sys2Proof/Machine/Flags.lean ====
section
/-! DEFINITION. The status bits and the output ports (10_state.md rules R33, R34; 30_encoding.md rules R77 to R79). There
are no arithmetic flags: "no operation has a flag side effect" (R33). -/

namespace Sys2Proof.Machine

/-- The four values of `STATUS` (10_state.md rule R33). -/
inductive Status where
  | idle | busy | done | error
  deriving DecidableEq, Repr

/-- `STATUS` as a function of `PH` (10_state.md rule R33). -/
def Phase.status : Phase → Status
  | .idle => .idle
  | .chk | .frame | .unpack | .expand | .load | .round | .accum | .fmt => .busy
  | .done => .done
  | .error => .error

/-- The code of a status on `status[1:0]` (30_encoding.md rule R78). -/
def Status.code : Status → BitVec 2
  | .idle => 0
  | .busy => 1
  | .done => 2
  | .error => 3

/-- The `status` port (30_encoding.md rules R77, R78); defined always (10_state.md rule R34). -/
def State.statusPort (s : State) : BitVec 2 := s.ph.status.code

/-- The `err` port (30_encoding.md rules R77, R79): 1 = `LengthOverflow`; defined always (R34). -/
def State.errPort (s : State) : BitVec 1 := BitVec.ofBool s.err

/-- Port `h<k>` as host read number `read` finds it: `H[k]` while `STATUS = DONE`, any value otherwise (10_state.md rule
R34, 93_implementation_defined.md U9; log entry 13). -/
def State.hPort (s : State) (read : Nat) (k : Fin 5) : Word :=
  if s.ph.status = .done then s.h.get k else Config.freeHPort read k

/-- Byte `k` of the `digest` port as host read number `read` finds it: `DIGEST[k]` while `STATUS = DONE`, any value
otherwise (R34, U9; log entry 13). -/
def State.digestPort (s : State) (read : Nat) (k : Fin 40) : Byte :=
  if s.ph.status = .done then s.digest[k] else Config.freeDigestPort read k

end Sys2Proof.Machine
end

