-- ==== Sys2Proof/Machine/Pseudo.lean ====
section
/-! DEFINITION. The trace syntax and the pseudo-operations of 30_encoding.md rules R87 and R88: names for operations and
for fixed sequences of them; and the message reads of a run (20_memory.md rule R57). No step uses this file; it is what a run of the machine is compared with. -/

namespace Sys2Proof.Machine

/-- The name of an operation in a trace line (30_encoding.md rule R87), as spec/opcode_table.json spells it. -/
def mnemonicOf : Instr → String
  | .reset => "RESET"
  | .start _ => "START"
  | .holdIdle => "HOLD"
  | .chk => "CHK"
  | .frameFull => "FRAME.FULL"
  | .frameFinal => "FRAME.FINAL"
  | .frameFill => "FRAME.FILL"
  | .frameLen => "FRAME.LEN"
  | .unpack => "UNPACK"
  | .expand => "EXPAND"
  | .load => "LOAD"
  | .roundCh => "ROUND.CH"
  | .roundPar1 => "ROUND.PAR1"
  | .roundMaj => "ROUND.MAJ"
  | .roundPar2 => "ROUND.PAR2"
  | .accum => "ACCUM"
  | .fmt => "FMT"
  | .holdDone => "HOLD"
  | .holdError => "HOLD"

/-- `PAD j`: the one FRAME.* step for block `j` of a message of `L` bytes (30_encoding.md rules R81, R88). -/
def pseudoPad (L j : Nat) : List Instr :=
  match frameClass L j with
  | some fc =>
    match fc.toNat with
    | 0 => [.frameFull]
    | 1 => [.frameFinal]
    | 2 => [.frameFill]
    | _ => [.frameLen]
  | none => []

/-- `SCHEDULE`: UNPACK, EXPAND x64 (R88). -/
def pseudoSchedule : List Instr := .unpack :: List.replicate 64 .expand

/-- `COMPRESS`: LOAD and the four quarters of twenty rounds (R88). -/
def pseudoCompress : List Instr :=
  .load :: (List.replicate 20 .roundCh ++ List.replicate 20 .roundPar1 ++ List.replicate 20 .roundMaj
    ++ List.replicate 20 .roundPar2)

/-- `BLOCK j`: PAD j, SCHEDULE, COMPRESS, ACCUM (R88). -/
def pseudoBlock (L j : Nat) : List Instr := pseudoPad L j ++ pseudoSchedule ++ pseudoCompress ++ [.accum]

/-- `HASH`: START, CHK, then nothing more (error), or BLOCK 0 .. BLOCK NB-1 and FMT (R88). -/
def pseudoHash (len : BitVec 64) : List Instr :=
  .start len :: .chk ::
    (if lengthLimit ≤ len.toNat then []
    else (List.range (blockCount len.toNat)).flatMap (pseudoBlock len.toNat) ++ [.fmt])

/-- The operations the next `n` steps perform, in order, as long as the machine goes on (R87). -/
def trace : Nat → State → List Instr
  | 0, _ => []
  | n + 1, s =>
    match s.fetch, step s with
    | .ok i, .next t => i :: trace n t
    | _, _ => []

/-- The message indexes an operation asks the host for, in order (20_memory.md rule R57): 64 for FRAME.FULL, the tail for
FRAME.FINAL and FRAME.FILL, none for any other. -/
def messageReads (i : Instr) (s : State) : List Nat :=
  match i with
  | .frameFull => (List.range 64).map (64 * s.bi.toNat + ·)
  | .frameFinal | .frameFill => (List.range (tailLength s.len.toNat)).map (64 * s.bi.toNat + ·)
  | .reset | .start _ | .holdIdle | .chk | .frameLen | .unpack | .expand | .load | .roundCh | .roundPar1 | .roundMaj
  | .roundPar2 | .accum | .fmt | .holdDone | .holdError => []

/-- The message indexes the next `n` steps ask for, in order, as long as the machine goes on (R57). -/
def indexesRead : Nat → State → List Nat
  | 0, _ => []
  | n + 1, s =>
    match s.fetch, step s with
    | .ok i, .next t => messageReads i s ++ indexesRead n t
    | _, _ => []

end Sys2Proof.Machine
end

