-- ==== Sys2Proof/Safety.lean ====
section
/-! DEFINITION. What counts as a safe state, in the terms the statements use: the invariants of 10_state.md rule R40, the
agreement of the registers with the functions of the five stages, and the sequencer's table (45_transaction.md rule
R176) written as the spec writes it, apart from the step. -/

namespace Sys2Proof.Machine

/-- No host event is pending: the next step is the core's own (45_transaction.md rule R175 (a)). -/
def State.Quiet (s : State) : Prop := s.ports.rst = false ∧ s.ports.start = false

/-- Where `T` has been written since the last RESET it is at most 80 (10_state.md rule R29: "Values 81 to 127 are never
reached"). -/
abbrev State.indexBounded (s : State) : Prop := s.indexLive = true → s.t.toNat ≤ 80

/-- The host has just issued START in a resting phase of a state that keeps rules R40 (b) and R29 of 10_state.md
(45_transaction.md rule R177). -/
def State.Commanded (s : State) : Prop :=
  s.ports.rst = false ∧ s.ports.start = true ∧ s.ph.resting = true ∧ (s.err = true ↔ s.ph = .error) ∧ s.indexBounded

/-- The range of `T` that each phase gives it (10_state.md rule R40 (e)). -/
def State.indexInRange (s : State) : Prop :=
  match s.ph with
  | .expand => 16 ≤ s.t.toNat ∧ s.t.toNat ≤ 79
  | .load => s.t.toNat = 80
  | .round => s.t.toNat ≤ 79
  | .accum => s.t.toNat = 80
  | .idle | .chk | .frame | .unpack | .fmt | .done | .error => True

/-- The invariants of 10_state.md rule R40 (a) to (f), with the bound of rule R29 on `T`; (a) is the type `Phase`. The last two say that the message spaces
are in canonical form. -/
structure State.Inv (s : State) : Prop where
  /-- (b) `ERR = 1` if and only if `PH = ERROR`. -/
  errorFlag : s.err = true ↔ s.ph = .error
  /-- (c) In a busy phase other than `CHK`, `LEN < 2^61` and `NB = N(LEN)`. -/
  accepted : s.ph.resting = false → s.ph ≠ .chk → s.len.toNat < lengthLimit ∧ s.nb.toNat = blockCount s.len.toNat
  /-- (d) In a block phase `BI < NB`. -/
  blockIndex : s.ph.onBlock = true → s.bi.toNat < s.nb.toNat
  /-- (e) `T` is in the range of the phase. -/
  index : s.indexInRange
  /-- Rule R29: `T` is never 81 to 127 once it has been written. -/
  indexBound : s.indexBounded
  /-- (f) In `FMT` and `DONE`, `BI = NB`. -/
  finished : s.ph = .fmt ∨ s.ph = .done → s.bi = s.nb
  /-- The bound message is in canonical form. -/
  message : Memory.wf s.msg = true
  /-- The presented message is in canonical form. -/
  presented : Memory.wf s.ports.msg = true

/-- `H` holds the State threaded through the blocks before block `BI` (43_compress.md rule R148). -/
def State.threaded (s : State) : Prop := s.h = absorbFirst s.msg s.len.toNat s.bi.toNat

/-- `BLK` holds block `BI` of the message (40_padder.md rule R108 (b)). -/
def State.framed (s : State) : Prop := block s.msg s.len.toNat s.bi.toNat = some s.blk

/-- The registers agree with the functions of the stages, phase by phase: what every micro-operation has left for the
next (40_padder.md R108, 42_schedule.md R128, 43_compress.md R145 and R148, 10_state.md R40 (g)). -/
def State.agrees (s : State) : Prop :=
  match s.ph with
  | .idle | .chk | .error => True
  | .frame => s.threaded
  | .unpack => s.threaded ∧ s.framed
  | .expand => s.threaded ∧ s.framed ∧
      ∀ (i : Nat) (h : i < 80), i < s.t.toNat → s.w[i] = (expand (unpack s.blk))[i]
  | .load => s.threaded ∧ s.framed ∧ s.w = expand (unpack s.blk)
  | .round => s.threaded ∧ s.framed ∧ s.w = expand (unpack s.blk) ∧
      s.s = roundsFirst s.h.toWorking s.w s.t.toNat
  | .accum => s.threaded ∧ s.framed ∧ s.w = expand (unpack s.blk) ∧ s.s = compress s.h s.w
  | .fmt => s.threaded
  | .done => s.len.toNat < lengthLimit ∧ s.h = absorbFirst s.msg s.len.toNat (blockCount s.len.toNat) ∧
      s.digest = format s.h

/-- The invariants of rule R40, (a) to (g). -/
structure State.Correct (s : State) : Prop where
  inv : s.Inv
  agrees : s.agrees

/-- One row of the sequencer's table (45_transaction.md rule R176): the operation, the next `PH`, `T` after and `BI`
after. -/
structure SequencerRow where
  operation : Instr
  phase : Phase
  t : Nat
  bi : Nat
  deriving DecidableEq, Repr

/-- The FRAME.* operation of block `j` of a message of `L` bytes, `j < N(L)` (40_padder.md rule R108 (a)): FRAME.FULL for
the `q` full blocks, then FRAME.FINAL, or FRAME.FILL and FRAME.LEN. -/
def frameOperation (L j : Nat) : Instr :=
  if j < L / 64 then .frameFull
  else if L % 64 ≤ 55 then .frameFinal
  else if j = L / 64 then .frameFill
  else .frameLen

/-- The ROUND.* operation of round `t` (30_encoding.md rule R82). -/
def roundOperation (t : Nat) : Instr :=
  if t ≤ 19 then .roundCh else if t ≤ 39 then .roundPar1 else if t ≤ 59 then .roundMaj else .roundPar2

/-- The sequencer's table (45_transaction.md rule R176), row by row, for the core's own steps. -/
def sequencerRow (s : State) : SequencerRow :=
  match s.ph with
  | .idle => ⟨.holdIdle, .idle, s.t.toNat, s.bi.toNat⟩
  | .chk =>
    if 2 ^ 61 ≤ s.len.toNat then ⟨.chk, .error, s.t.toNat, s.bi.toNat⟩
    else ⟨.chk, .frame, s.t.toNat, 0⟩
  | .frame => ⟨frameOperation s.len.toNat s.bi.toNat, .unpack, s.t.toNat, s.bi.toNat⟩
  | .unpack => ⟨.unpack, .expand, 16, s.bi.toNat⟩
  | .expand =>
    if s.t.toNat ≤ 78 then ⟨.expand, .expand, s.t.toNat + 1, s.bi.toNat⟩
    else ⟨.expand, .load, 80, s.bi.toNat⟩
  | .load => ⟨.load, .round, 0, s.bi.toNat⟩
  | .round =>
    if s.t.toNat ≤ 78 then ⟨roundOperation s.t.toNat, .round, s.t.toNat + 1, s.bi.toNat⟩
    else ⟨.roundPar2, .accum, 80, s.bi.toNat⟩
  | .accum =>
    if s.bi.toNat + 1 < s.nb.toNat then ⟨.accum, .frame, s.t.toNat, s.bi.toNat + 1⟩
    else ⟨.accum, .fmt, s.t.toNat, s.bi.toNat + 1⟩
  | .fmt => ⟨.fmt, .done, s.t.toNat, s.bi.toNat⟩
  | .done => ⟨.holdDone, .done, s.t.toNat, s.bi.toNat⟩
  | .error => ⟨.holdError, .error, s.t.toNat, s.bi.toNat⟩

end Sys2Proof.Machine
end

