-- ==== Sys2Proof/Certificates/Slice0/Obligations.lean ====
section
/-! DEFINITION. The statements for the provers. Each docstring names the rule of spec/ it formalises. Where a statement
says `= .next { s with … }`, every register, every port line and every byte of the message space that is not named in
the update is unchanged: that equation is the frame. -/

open Sys2Proof Sys2Proof.Machine

/-! ## Primitives and pure functions -/

/-- 00_scope.md rule R9: `add32` is the exact sum modulo 2^32; the order of the operands and the place of the reduction
do not matter. -/
def Obligations.AddIsSumModuloWord : Prop :=
  (∀ xs : List Word, (add32 xs).toNat = (xs.map BitVec.toNat).sum % 2 ^ 32) ∧
  (∀ xs ys : List Word, xs.Perm ys → add32 xs = add32 ys) ∧
  (∀ (x : Word) (xs : List Word), add32 (x :: xs) = x + add32 xs)

/-- 00_scope.md rule R11: `rotl` as the arithmetic formula and as the concatenation of the two slices, for every amount
of its domain. -/
def Obligations.RotlIsCircularLeftRotation : Prop :=
  ∀ (x : Word) (n : Nat) (h : 1 ≤ n ∧ n ≤ 31),
    (rotl x n h).toNat = (x.toNat * 2 ^ n) % 2 ^ 32 + x.toNat / 2 ^ (32 - n) ∧
    ∀ i : Nat, i < 32 →
      (rotl x n h).getLsbD i = if i < n then x.getLsbD (32 - n + i) else x.getLsbD (i - n)

/-- 43_compress.md rules R135, R136, R137: the three logical functions, bit position by bit position, and the corner
cases of R135 and rules R141 and R143. -/
def Obligations.LogicalFunctionsAreBitwise : Prop :=
  ∀ b c d : Word,
    (∀ i : Nat, i < 32 →
      (fCh b c d).getLsbD i = (if b.getLsbD i then c.getLsbD i else d.getLsbD i) ∧
      (fPar b c d).getLsbD i = ((b.getLsbD i ^^ c.getLsbD i) ^^ d.getLsbD i) ∧
      (fMaj b c d).getLsbD i =
        decide (2 ≤ (b.getLsbD i).toNat + (c.getLsbD i).toNat + (d.getLsbD i).toNat)) ∧
    (b &&& c) &&& (~~~b &&& d) = 0#32 ∧
    fCh b c d = (b &&& c) ^^^ (~~~b &&& d) ∧
    fCh b c d = (b &&& c) + (~~~b &&& d) ∧
    fCh 0xFFFFFFFF#32 c d = c ∧ fCh 0#32 c d = d ∧
    fMaj b b d = b ∧ fMaj b c b = b ∧ fMaj b c c = c

/-- 40_padder.md rule R101 and 10_state.md rule R27: the number of blocks, which the source also writes as
`ceil((L+9)/64)`; for an accepted length it fits 56 bits. -/
def Obligations.BlockCountIsCeiling : Prop :=
  ∀ L : Nat,
    blockCount L = (if L % 64 ≤ 55 then L / 64 + 1 else L / 64 + 2) ∧
    blockCount L = (L + 9 + 63) / 64 ∧
    1 ≤ blockCount L ∧
    (L < 2 ^ 61 → blockCount L ≤ 2 ^ 55 + 1)

/-- 00_scope.md rule R13: the eight bytes of a 64-bit integer are its digits in base 256, most significant first; the bit
length of an accepted message is such an integer, formed without wrap (30_encoding.md rule R72). -/
def Obligations.LengthFieldIsBigEndianBitLength : Prop :=
  (∀ v : Nat, v < 2 ^ 64 →
    ((List.range 8).map fun i => (be64byte v i).toNat * 256 ^ (7 - i)).sum = v ∧
    ∀ i : Nat, i < 8 → (be64byte v i).toNat = (v / 2 ^ (8 * (7 - i))) % 256) ∧
  ∀ L : Nat, L < 2 ^ 61 → bitLength L = L * 8 ∧ bitLength L < 2 ^ 64

/-- 40_padder.md rule R102 and 30_encoding.md rules R70 and R71: block `j` is bytes `64j` to `64j + 63` of PADDED, for
exactly the `j` below `N(L)`. -/
def Obligations.BlocksArePaddedMessage : Prop :=
  ∀ (m : Memory) (L : Nat), L < 2 ^ 61 →
    L + 1 + zeroBytes L + 8 = 64 * blockCount L ∧ zeroBytes L ≤ 63 ∧
    (∀ j : Nat, j < blockCount L →
      ∃ b : Block, block m L j = some b ∧ ∀ (k : Nat) (h : k < 64), b[k] = paddedByte m L (64 * j + k)) ∧
    (∀ j : Nat, blockCount L ≤ j → block m L j = none)

/-- 41_unpack.md rule R120: each word is the big-endian reading of its four bytes, and the function is a bijection. -/
def Obligations.UnpackIsBigEndianBijection : Prop :=
  (∀ (b : Block) (i : Nat) (h : i < 16),
    (unpack b)[i].toNat =
      b[4 * i].toNat * 2 ^ 24 + b[4 * i + 1].toNat * 2 ^ 16 + b[4 * i + 2].toNat * 2 ^ 8 + b[4 * i + 3].toNat) ∧
  Function.Bijective unpack

/-- 42_schedule.md rule R125: `expand` is the one schedule that copies the Word block and satisfies the recurrence. -/
def Obligations.ExpandIsTheRecurrence : Prop :=
  ∀ (x : Vector Word 16) (y : Schedule),
    y = expand x ↔
      (∀ (i : Nat) (h : i < 16), y[i] = x[i]) ∧
      ∀ (i : Nat) (h : 16 ≤ i ∧ i < 80), y[i] = rotl (y[i - 3] ^^^ y[i - 8] ^^^ y[i - 14] ^^^ y[i - 16]) 1

/-- 44_format.md rule R161 and 30_encoding.md rules R75 and R76: character `8k + n` is the code of the digit
`(H[k] div 16^(7-n)) mod 16`, every character is an upper-case hexadecimal digit, and the string determines the State. -/
def Obligations.FormatIsInjectiveUppercaseHex : Prop :=
  (∀ (h : HRegs) (k : Fin 5) (n : Nat) (hn : n < 8),
    (format h)[8 * k.val + n].toNat =
      (let v := (h.get k).toNat / 16 ^ (7 - n) % 16
       if v ≤ 9 then 0x30 + v else 0x37 + v)) ∧
  (∀ (h : HRegs) (i : Nat) (hi : i < 40),
    (0x30 ≤ (format h)[i].toNat ∧ (format h)[i].toNat ≤ 0x39) ∨
    (0x41 ≤ (format h)[i].toNat ∧ (format h)[i].toNat ≤ 0x46)) ∧
  (∀ h h' : HRegs, format h = format h' → h = h')

/-- 70_reset_and_hazards.md rule R238: bytes past `len - 1` are not hashed; 45_transaction.md rule R170: a length of
2^61 or more gives the error whatever the message. -/
def Obligations.HashUsesOnlyTheDeclaredBytes : Prop :=
  ∀ (m m' : Memory) (L : Nat),
    ((∀ p : Nat, p < L → Memory.read m p = Memory.read m' p) → hash m L = hash m' L) ∧
    (2 ^ 61 ≤ L → hash m L = .lengthOverflow) ∧
    (L < 2 ^ 61 → ∃ d : Digest, hash m L = .ok d)

/-- 20_memory.md rule R54: after unpacking, the bit length sits in `W[14]` (upper half) and `W[15]` (lower half) of the
last block. -/
def Obligations.BitLengthSitsInLastWords : Prop :=
  ∀ (m : Memory) (L : Nat), L < 2 ^ 61 →
    ∃ b : Block, block m L (blockCount L - 1) = some b ∧
      (unpack b)[14].toNat * 2 ^ 32 + (unpack b)[15].toNat = L * 8

/-! ## Encoding -/

/-- 30_encoding.md rule R83: a word decodes to an operation exactly when it agrees with the operation's encoding on
every bit its row reads; so encoding then decoding gives every operation back, with every `len`. -/
def Obligations.DecodeAgreesWithEncode : Prop :=
  (∀ (w : RawWord) (i : Instr), decode w = .ok i ↔ w.under i = encode i) ∧
  (∀ i : Instr, i.wellFormed = true → decode (encode i) = .ok i) ∧
  (∀ w : RawWord, w.wellFormed = true ↔ ∃ i : Instr, decode w = .ok i) ∧
  (∀ (w : RawWord) (i : Instr), decode w = .ok i → w.canonical = true → encode i = w)

/-- 30_encoding.md rules R77 and R84: the words that select nothing are rejected by name. -/
def Obligations.ReservedWordsAreRejected : Prop :=
  (∀ (ph : BitVec 4) (sub : BitVec 2), 11 ≤ ph.toNat → decode (.cw (ph ++ sub)) = .error (.reservedPhase ph)) ∧
  (∀ len : BitVec 64, decode (.cmd (0#1 ++ len)) = .error .noCommand) ∧
  decode (.rst 0#1) = .error .noReset

/-- 30_encoding.md rule R83, 95_test_vectors.md section 3.6: words written out from the map decode to the operations they
stand for. -/
def Obligations.WrittenWordsDecode : Prop :=
  decode (.rst 0b1#1) = .ok .reset ∧
  decode (.cmd 0x10000000000000003#65) = .ok (.start 3#64) ∧
  decode (.cw 0b000000#6) = .ok .holdIdle ∧
  decode (.cw 0b000100#6) = .ok .chk ∧
  decode (.cw 0b001001#6) = .ok .frameFinal ∧
  decode (.cw 0b001011#6) = .ok .frameLen ∧
  decode (.cw 0b001100#6) = .ok .unpack ∧
  decode (.cw 0b010011#6) = .ok .expand ∧
  decode (.cw 0b010100#6) = .ok .load ∧
  decode (.cw 0b011010#6) = .ok .roundMaj ∧
  decode (.cw 0b011100#6) = .ok .accum ∧
  decode (.cw 0b100000#6) = .ok .fmt ∧
  decode (.cw 0b101000#6) = .ok .holdError

/-- 30_encoding.md rules R80 to R83: in a state that keeps the invariants the control word is `4 * code(PH) + SUB`, with
`SUB` the frame class in `FRAME`, the quarter `T div 20` in `ROUND`, 0 elsewhere. -/
def Obligations.ControlWordIsPhaseAndSub : Prop :=
  ∀ s : State, s.Inv →
    ∃ w : BitVec 6, s.controlWord = .ok w ∧
      w.toNat / 4 = s.ph.code.toNat ∧
      (s.ph = .frame →
        (w.toNat % 4 = 0 ↔ s.bi.toNat < s.len.toNat / 64) ∧
        (w.toNat % 4 = 1 ↔ s.bi.toNat = s.len.toNat / 64 ∧ s.len.toNat % 64 ≤ 55) ∧
        (w.toNat % 4 = 2 ↔ s.bi.toNat = s.len.toNat / 64 ∧ 56 ≤ s.len.toNat % 64) ∧
        (w.toNat % 4 = 3 ↔ s.bi.toNat = s.len.toNat / 64 + 1 ∧ 56 ≤ s.len.toNat % 64)) ∧
      (s.ph = .round → w.toNat % 4 = s.t.toNat / 20) ∧
      (s.ph ≠ .frame → s.ph ≠ .round → w.toNat % 4 = 0)

/-! ## What each operation does -/

/-- 70_reset_and_hazards.md rule R230: RESET completes in every state; `PH` and `ERR` are as the rule says, and nothing
is said of the other registers, which are unspecified. The message and the port lines stay. -/
def Obligations.ResetGoesToIdle : Prop :=
  ∀ s : State, ∃ t : State, exec .reset s = .next t ∧
    t.ph = .idle ∧ t.err = false ∧ t.statusPort = 0#2 ∧ t.errPort = 0#1 ∧ t.ports = s.ports ∧
    ∀ a : Nat, Memory.read t.msg a = Memory.read s.msg a

/-- 45_transaction.md rule R171, first arm: in `IDLE`, `DONE` and `ERROR` a START samples `len`, clears `ERR` and goes to
`CHK`; the message of the transaction is the one presented (the model's binding, log entry 4). -/
def Obligations.StartBeginsTransaction : Prop :=
  ∀ (len : BitVec 64) (s : State), s.ph = .idle ∨ s.ph = .done ∨ s.ph = .error →
    exec (.start len) s = .next { s with len := len, err := false, ph := .chk, msg := s.ports.msg }

/-- 45_transaction.md rules R171, second arm, and R180: a START in a busy phase changes nothing. -/
def Obligations.StartWhileBusyChangesNothing : Prop :=
  ∀ (len : BitVec 64) (s : State), s.ph ≠ .idle → s.ph ≠ .done → s.ph ≠ .error → exec (.start len) s = .next s

/-- 45_transaction.md rule R172: HOLD, in each of its three encodings, writes nothing. -/
def Obligations.HoldWritesNothing : Prop :=
  ∀ s : State, exec .holdIdle s = .next s ∧ exec .holdDone s = .next s ∧ exec .holdError s = .next s

/-- 40_padder.md rule R103: both arms of CHK. -/
def Obligations.ChkGuardsAndInitialises : Prop :=
  ∀ s : State,
    (2 ^ 61 ≤ s.len.toNat → exec .chk s = .next { s with err := true, ph := .error }) ∧
    (s.len.toNat < 2 ^ 61 → ∃ nb : BitVec 56,
      nb.toNat = (if s.len.toNat % 64 ≤ 55 then s.len.toNat / 64 + 1 else s.len.toNat / 64 + 2) ∧
      exec .chk s = .next { s with
        h := ⟨0x67452301#32, 0xEFCDAB89#32, 0x98BADCFE#32, 0x10325476#32, 0xC3D2E1F0#32⟩
        nb := nb, bi := 0#56, ph := .frame })

/-- 40_padder.md rule R104: FRAME.FULL, for `BI < LEN div 64`. -/
def Obligations.FrameFullCopiesMessage : Prop :=
  ∀ s : State, s.len.toNat < 2 ^ 61 → s.bi.toNat < s.len.toNat / 64 →
    ∃ b : Block, exec .frameFull s = .next { s with blk := b, ph := .unpack } ∧
      ∀ (k : Nat) (h : k < 64),
        64 * s.bi.toNat + k < s.len.toNat ∧ b[k] = Memory.read s.msg (64 * s.bi.toNat + k)

/-- 40_padder.md rule R105: FRAME.FINAL, for `BI = LEN div 64` and `LEN mod 64 <= 55`; it is the last block. -/
def Obligations.FrameFinalPadsLastBlock : Prop :=
  ∀ (s : State) (r : Nat), s.len.toNat < 2 ^ 61 → s.bi.toNat = s.len.toNat / 64 → r = s.len.toNat % 64 → r ≤ 55 →
    s.bi.toNat + 1 = blockCount s.len.toNat ∧
    ∃ b : Block, exec .frameFinal s = .next { s with blk := b, ph := .unpack } ∧
      (∀ (k : Nat) (h : k < 64), k < r →
        64 * s.bi.toNat + k < s.len.toNat ∧ b[k] = Memory.read s.msg (64 * s.bi.toNat + k)) ∧
      (∀ (k : Nat) (h : k < 64), k = r → b[k] = 0x80#8) ∧
      (∀ (k : Nat) (h : k < 64), r < k → k < 56 → b[k] = 0x00#8) ∧
      (∀ (i : Nat) (h : i < 8), b[56 + i].toNat = (s.len.toNat * 8 / 2 ^ (8 * (7 - i))) % 256)

/-- 40_padder.md rule R106: FRAME.FILL, for `BI = LEN div 64` and `LEN mod 64 >= 56`; one block, that of FRAME.LEN,
follows it. -/
def Obligations.FrameFillPadsTail : Prop :=
  ∀ (s : State) (r : Nat), s.len.toNat < 2 ^ 61 → s.bi.toNat = s.len.toNat / 64 → r = s.len.toNat % 64 → 56 ≤ r →
    s.bi.toNat + 2 = blockCount s.len.toNat ∧
    ∃ b : Block, exec .frameFill s = .next { s with blk := b, ph := .unpack } ∧
      (∀ (k : Nat) (h : k < 64), k < r →
        64 * s.bi.toNat + k < s.len.toNat ∧ b[k] = Memory.read s.msg (64 * s.bi.toNat + k)) ∧
      (∀ (k : Nat) (h : k < 64), k = r → b[k] = 0x80#8) ∧
      (∀ (k : Nat) (h : k < 64), r < k → b[k] = 0x00#8)

/-- 40_padder.md rule R107: FRAME.LEN, for `BI = LEN div 64 + 1` and `LEN mod 64 >= 56`; the block depends on `LEN`
only and is the last. -/
def Obligations.FrameLenHoldsOnlyLength : Prop :=
  ∀ s : State, s.len.toNat < 2 ^ 61 → s.bi.toNat = s.len.toNat / 64 + 1 → 56 ≤ s.len.toNat % 64 →
    s.bi.toNat + 1 = blockCount s.len.toNat ∧
    ∃ b : Block, exec .frameLen s = .next { s with blk := b, ph := .unpack } ∧
      (∀ (k : Nat) (h : k < 64), k < 56 → b[k] = 0x00#8) ∧
      (∀ (i : Nat) (h : i < 8), b[56 + i].toNat = (s.len.toNat * 8 / 2 ^ (8 * (7 - i))) % 256)

/-- 41_unpack.md rule R121: UNPACK writes `W[0..16)` big-endian, leaves `W[16..80)`, sets `T` to 16. -/
def Obligations.UnpackLoadsWordBlock : Prop :=
  ∀ s : State, ∃ w : Schedule,
    exec .unpack s = .next { s with w := w, t := 16#7, ph := .expand } ∧
    (∀ (i : Nat) (h : i < 16), w[i].toNat =
      s.blk[4 * i].toNat * 2 ^ 24 + s.blk[4 * i + 1].toNat * 2 ^ 16 + s.blk[4 * i + 2].toNat * 2 ^ 8
        + s.blk[4 * i + 3].toNat) ∧
    (∀ (i : Nat) (h : i < 80), 16 ≤ i → w[i] = s.w[i])

/-- 42_schedule.md rule R126: EXPAND computes `W[T]` from four taps, for `16 <= T <= 79`, and leaves every other word. -/
def Obligations.ExpandComputesOneWord : Prop :=
  ∀ (s : State) (T : Nat) (hT : 16 ≤ T ∧ T ≤ 79), s.t.toNat = T →
    ∃ (w : Schedule) (t : BitVec 7), t.toNat = T + 1 ∧
      exec .expand s = .next { s with w := w, t := t, ph := if T = 79 then .load else .expand } ∧
      w[T] = rotl (s.w[T - 3] ^^^ s.w[T - 8] ^^^ s.w[T - 14] ^^^ s.w[T - 16]) 1 ∧
      (∀ (i : Nat) (h : i < 80), i ≠ T → w[i] = s.w[i])

/-- 43_compress.md rule R139: LOAD. -/
def Obligations.LoadCopiesRunningState : Prop :=
  ∀ s : State, exec .load s =
    .next { s with s := ⟨s.h.a, s.h.b, s.h.c, s.h.d, s.h.e⟩, t := 0#7, ph := .round }

/-- 43_compress.md rules R140 and R141: ROUND.CH, for `0 <= T <= 19`. -/
def Obligations.RoundChPerformsRound : Prop :=
  ∀ (s : State) (T : Nat) (hT : T ≤ 19), s.t.toNat = T →
    ∃ t : BitVec 7, t.toNat = T + 1 ∧
      exec .roundCh s = .next { s with
        s := ⟨rotl s.s.s1 5 + ((s.s.s2 &&& s.s.s3) ||| (~~~s.s.s2 &&& s.s.s4)) + s.s.s5 + s.w[T] + 0x5A827999#32,
          s.s.s1, rotl s.s.s2 30, s.s.s3, s.s.s4⟩
        t := t, ph := .round }

/-- 43_compress.md rules R140 and R142: ROUND.PAR1, for `20 <= T <= 39`. -/
def Obligations.RoundPar1PerformsRound : Prop :=
  ∀ (s : State) (T : Nat) (hT : 20 ≤ T ∧ T ≤ 39), s.t.toNat = T →
    ∃ t : BitVec 7, t.toNat = T + 1 ∧
      exec .roundPar1 s = .next { s with
        s := ⟨rotl s.s.s1 5 + (s.s.s2 ^^^ s.s.s3 ^^^ s.s.s4) + s.s.s5 + s.w[T] + 0x6ED9EBA1#32,
          s.s.s1, rotl s.s.s2 30, s.s.s3, s.s.s4⟩
        t := t, ph := .round }

/-- 43_compress.md rules R140 and R143: ROUND.MAJ, for `40 <= T <= 59`. -/
def Obligations.RoundMajPerformsRound : Prop :=
  ∀ (s : State) (T : Nat) (hT : 40 ≤ T ∧ T ≤ 59), s.t.toNat = T →
    ∃ t : BitVec 7, t.toNat = T + 1 ∧
      exec .roundMaj s = .next { s with
        s := ⟨rotl s.s.s1 5 + ((s.s.s2 &&& s.s.s3) ||| (s.s.s2 &&& s.s.s4) ||| (s.s.s3 &&& s.s.s4)) + s.s.s5 + s.w[T]
            + 0x8F1BBCDC#32,
          s.s.s1, rotl s.s.s2 30, s.s.s3, s.s.s4⟩
        t := t, ph := .round }

/-- 43_compress.md rules R140 and R144: ROUND.PAR2, for `60 <= T <= 79`; the round at 79 is the last of the block. -/
def Obligations.RoundPar2PerformsRound : Prop :=
  ∀ (s : State) (T : Nat) (hT : 60 ≤ T ∧ T ≤ 79), s.t.toNat = T →
    ∃ t : BitVec 7, t.toNat = T + 1 ∧
      exec .roundPar2 s = .next { s with
        s := ⟨rotl s.s.s1 5 + (s.s.s2 ^^^ s.s.s3 ^^^ s.s.s4) + s.s.s5 + s.w[T] + 0xCA62C1D6#32,
          s.s.s1, rotl s.s.s2 30, s.s.s3, s.s.s4⟩
        t := t, ph := if T = 79 then .accum else .round }

/-- 43_compress.md rule R146: ACCUM, five separate wrapping sums, then the next block or the formatter. -/
def Obligations.AccumFoldsRoundOutput : Prop :=
  ∀ s : State, s.bi.toNat < s.nb.toNat →
    ∃ bi : BitVec 56, bi.toNat = s.bi.toNat + 1 ∧
      exec .accum s = .next { s with
        h := ⟨s.h.a + s.s.s1, s.h.b + s.s.s2, s.h.c + s.s.s3, s.h.d + s.s.s4, s.h.e + s.s.s5⟩
        bi := bi, ph := if s.bi.toNat + 1 = s.nb.toNat then .fmt else .frame }

/-- 44_format.md rule R162: FMT writes the forty character codes and enters `DONE` in one step. -/
def Obligations.FmtRendersDigest : Prop :=
  ∀ s : State, ∃ d : Digest,
    exec .fmt s = .next { s with digest := d, ph := .done } ∧
    ∀ (k : Fin 5) (n : Nat) (hn : n < 8),
      d[8 * k.val + n].toNat =
        (let v := (s.h.get k).toNat / 16 ^ (7 - n) % 16
         if v ≤ 9 then 0x30 + v else 0x37 + v)

/-- The model's stops (log entry 8), after 30_encoding.md rule R84: an operation outside the range of `T`, `BI` or `LEN`
that its rule gives it is refused by name, and FRAME.FULL outside its class is a read of an index that does not exist
(20_memory.md rule R51). -/
def Obligations.OperationsStopOutsideTheirRange : Prop :=
  ∀ s : State,
    (exec .expand s = .refused .indexT ↔ ¬(16 ≤ s.t.toNat ∧ s.t.toNat ≤ 79)) ∧
    (exec .roundCh s = .refused .indexT ↔ ¬(s.t.toNat ≤ 19)) ∧
    (exec .roundPar1 s = .refused .indexT ↔ ¬(20 ≤ s.t.toNat ∧ s.t.toNat ≤ 39)) ∧
    (exec .roundMaj s = .refused .indexT ↔ ¬(40 ≤ s.t.toNat ∧ s.t.toNat ≤ 59)) ∧
    (exec .roundPar2 s = .refused .indexT ↔ ¬(60 ≤ s.t.toNat ∧ s.t.toNat ≤ 79)) ∧
    (exec .accum s = .refused .blockIndex ↔ s.nb.toNat ≤ s.bi.toNat) ∧
    (exec .frameFull s = .refused .lengthInBusy ↔ 2 ^ 61 ≤ s.len.toNat) ∧
    (exec .frameFull s = .fault .messageIndexOutside ↔
      s.len.toNat < 2 ^ 61 ∧ s.len.toNat / 64 ≤ s.bi.toNat) ∧
    (exec .frameFinal s = .refused .frameClass ↔
      ¬(s.bi.toNat = s.len.toNat / 64 ∧ s.len.toNat % 64 ≤ 55)) ∧
    (exec .frameFill s = .refused .frameClass ↔
      ¬(s.bi.toNat = s.len.toNat / 64 ∧ 56 ≤ s.len.toNat % 64)) ∧
    (exec .frameLen s = .refused .frameClass ↔
      ¬(s.bi.toNat = s.len.toNat / 64 + 1 ∧ 56 ≤ s.len.toNat % 64))

/-- 10_state.md rule R20, column "Written by", for every operation but RESET (after which the other registers are
unspecified): a register that changed is one the operation writes. The port lines are never written, and the message
space is bound by START only (20_memory.md rule R50). -/
def Obligations.RegistersAreWrittenOnlyByTheirWriters : Prop :=
  ∀ (i : Instr) (s t : State), i ≠ .reset → exec i s = .next t →
    (t.h ≠ s.h → i = .chk ∨ i = .accum) ∧
    (t.s ≠ s.s → i = .load ∨ i = .roundCh ∨ i = .roundPar1 ∨ i = .roundMaj ∨ i = .roundPar2) ∧
    (t.w ≠ s.w → i = .unpack ∨ i = .expand) ∧
    (t.blk ≠ s.blk → i = .frameFull ∨ i = .frameFinal ∨ i = .frameFill ∨ i = .frameLen) ∧
    (t.digest ≠ s.digest → i = .fmt) ∧
    (t.len ≠ s.len → ∃ len : BitVec 64, i = .start len) ∧
    (t.nb ≠ s.nb → i = .chk) ∧
    (t.bi ≠ s.bi → i = .chk ∨ i = .accum) ∧
    (t.t ≠ s.t → i = .unpack ∨ i = .expand ∨ i = .load ∨ i = .roundCh ∨ i = .roundPar1 ∨ i = .roundMaj ∨ i = .roundPar2) ∧
    (t.ph ≠ s.ph → i ≠ .holdIdle ∧ i ≠ .holdDone ∧ i ≠ .holdError) ∧
    (t.err ≠ s.err → (∃ len : BitVec 64, i = .start len) ∨ i = .chk) ∧
    ((∃ a : Nat, Memory.read t.msg a ≠ Memory.read s.msg a) → ∃ len : BitVec 64, i = .start len) ∧
    t.ports = s.ports

/-! ## The step -/

/-- 45_transaction.md rule R175: a step performs the operation its word decodes to, on the state whose strobes the step
has sampled; where the word comes from (30_encoding.md rules R77, R83). -/
def Obligations.StepRunsDecodedOperation : Prop :=
  ∀ s : State,
    (∀ (w : RawWord) (i : Instr), s.operationWord = .ok w → decode w = .ok i →
      step s = exec i { s with ports := { s.ports with rst := false, start := false } }) ∧
    (s.ports.rst = true → s.operationWord = .ok (.rst 1#1)) ∧
    (s.ports.rst = false → s.unreachable = none → s.ports.start = true → s.ph.resting = true →
      s.operationWord = .ok (.cmd (1#1 ++ s.ports.len))) ∧
    (s.ports.rst = false → s.unreachable = none → s.ports.start = false ∨ s.ph.resting = false →
      ∀ w : BitVec 6, s.controlWord = .ok w → s.operationWord = .ok (.cw w)) ∧
    (∀ r : Refusal, s.operationWord = .error r → step s = .refused r)

/-- 70_reset_and_hazards.md rule R231: a raised `rst` resets, whatever else is raised and whatever the state; the START
is lost and the micro-operation is not performed. -/
def Obligations.ResetHasPriority : Prop :=
  ∀ s : State, s.ports.rst = true →
    ∃ t : State, step s = .next t ∧ step s = exec .reset s.consume ∧
      t.ph = .idle ∧ t.err = false ∧ t.ports.start = false

/-- 45_transaction.md rule R180 and 60_exceptions.md rule R206 (b): a START raised in a busy phase makes no difference to
the step: the core's own operation is performed as if no command had come. -/
def Obligations.StartWhileBusyIsIgnored : Prop :=
  ∀ s : State, s.ports.rst = false → s.ph.resting = false →
    step s = step { s with ports := { s.ports with start := false } }

/-- 45_transaction.md rule R172 and 60_exceptions.md rule R205: without a host event a resting state stays exactly as it
is; in `ERROR` in particular nothing but START or RESET ends the error (R204). -/
def Obligations.RestingStateIsStable : Prop :=
  ∀ s : State, s.Quiet → s.ph.resting = true → (s.err = true ↔ s.ph = .error) → s.indexBounded → step s = .next s

/-- 45_transaction.md rule R176: the sequencer's table. In every state that keeps the invariants, without a host event,
the operation, the next phase, `T` after and `BI` after are the table's. -/
def Obligations.SequencerFollowsItsTable : Prop :=
  ∀ s : State, s.Inv → s.Quiet →
    ∃ (i : Instr) (t : State), s.fetch = .ok i ∧ step s = .next t ∧
      (⟨i, t.ph, t.t.toNat, t.bi.toNat⟩ : SequencerRow) = sequencerRow s

/-- 45_transaction.md rules R175 and R178, 60_exceptions.md rule R201: no state that keeps the invariants is without a
next step, whatever the host raises: no fault, no refusal, no stuck state. -/
def Obligations.EveryInvariantStateHasNextStep : Prop :=
  ∀ s : State, s.Inv → ∃ t : State, step s = .next t

/-- 40_padder.md rule R109, 60_exceptions.md rules R200, R201 and R203: the error is raised by CHK exactly when
`LEN >= 2^61`, and raising it changes nothing but `ERR` and `PH`. -/
def Obligations.OnlyChkRaisesLengthOverflow : Prop :=
  (∀ s t : State, step s = .next t → s.err = false → t.err = true →
    s.ph = .chk ∧ 2 ^ 61 ≤ s.len.toNat ∧ t = { s.consume with err := true, ph := .error }) ∧
  (∀ s : State, s.ports.rst = false → s.err = false → s.ph = .chk → 2 ^ 61 ≤ s.len.toNat →
    step s = .next { s.consume with err := true, ph := .error }) ∧
  (∀ s t : State, s.ports.rst = false → s.ph = .chk → s.len.toNat < 2 ^ 61 → step s = .next t → t.err = false)

/-- 20_memory.md rules R50 and R62 (a), 70_reset_and_hazards.md rule R236: the message changes only where a START is
accepted, and then to the one presented with it; never during a transaction. -/
def Obligations.MessageIsImmutableDuringTransaction : Prop :=
  ∀ s t : State, step s = .next t →
    (s.ph.resting = false → t.msg = s.msg) ∧
    (t.msg ≠ s.msg → s.ports.rst = false ∧ s.ports.start = true ∧ s.ph.resting = true ∧ t.ph = .chk ∧
      t.msg = s.ports.msg)

/-- 45_transaction.md rule R176 ("The message bytes never influence control flow") and 70_reset_and_hazards.md rule R240:
two states that differ in the message, bound or presented, perform the same operation and agree on the control registers
after it. -/
def Obligations.ControlDoesNotDependOnMessage : Prop :=
  ∀ (s t : State) (m m' : Memory), step s = .next t →
    ∃ t' : State, step { s with msg := m, ports := { s.ports with msg := m' } } = .next t' ∧
      State.fetch { s with msg := m, ports := { s.ports with msg := m' } } = s.fetch ∧
      t'.ph = t.ph ∧ t'.t = t.t ∧ t'.bi = t.bi ∧ t'.nb = t.nb ∧ t'.len = t.len ∧ t'.err = t.err

/-- 30_encoding.md rule R84 and 93_implementation_defined.md U8, as the model refuses them (log entry 8): no operation
but RESET runs in a state that is never reached. -/
def Obligations.UnreachableStatesAreRefused : Prop :=
  ∀ s : State, s.ports.rst = false →
    (s.ph = .expand ∧ s.t.toNat < 16) ∨
    ((s.ph = .expand ∨ s.ph = .round) ∧ 80 ≤ s.t.toNat) ∨
    ((s.ph = .load ∨ s.ph = .accum ∨ s.ph = .fmt ∨ s.ph = .done) ∧ 81 ≤ s.t.toNat) ∨
    ((s.ph = .frame ∨ s.ph = .unpack) ∧ 1 ≤ s.bi.toNat ∧ 81 ≤ s.t.toNat) ∨
    (s.ph.onBlock = true ∧ s.nb.toNat ≤ s.bi.toNat) ∨
    (s.ph.resting = false ∧ s.ph ≠ .chk ∧ 2 ^ 61 ≤ s.len.toNat) ∨
    ¬(s.err = true ↔ s.ph = .error) →
    ∃ r : Refusal, step s = .refused r

/-! ## Invariants -/

/-- 10_state.md rule R38: what reset fixes. -/
def Obligations.ResetStateIsIdle : Prop :=
  State.reset.ph = .idle ∧ State.reset.err = false ∧ State.reset.statusPort = 0#2 ∧ State.reset.errPort = 0#1

/-- 10_state.md rule R40 (a) to (f) hold at reset, whatever values the registers that reset leaves unspecified hold. -/
def Obligations.InvariantHoldsAtReset : Prop :=
  State.reset.Inv ∧
  ∀ (h : HRegs) (s : SRegs) (w : Schedule) (blk : Block) (digest : Digest) (len : BitVec 64) (nb bi : BitVec 56)
    (t : BitVec 7),
    State.Inv { State.reset with
      h := h, s := s, w := w, blk := blk, digest := digest, len := len, nb := nb, bi := bi, t := t }

/-- 10_state.md rule R40 (a) to (f), the bound of R29 on `T`, and the canonical form of the message spaces, are kept by every step, whatever the
host raises. -/
def Obligations.InvariantIsKeptByEveryStep : Prop :=
  ∀ s t : State, s.Inv → step s = .next t → t.Inv

/-- 10_state.md rule R40 (a) to (g) and the agreement of the registers with the stages' functions hold at reset. -/
def Obligations.AgreementHoldsAtReset : Prop := State.reset.Correct

/-- 10_state.md rule R40 (g), 40_padder.md rule R108 (b), 42_schedule.md rule R128, 43_compress.md rules R145 and R148:
the agreement of every register with the pure functions of the stages is kept by every step, whatever the host raises;
in `DONE` it says that `H` and `DIGEST` are the hash of the transaction's message. -/
def Obligations.AgreementIsKeptByEveryStep : Prop :=
  (∀ s t : State, s.Correct → step s = .next t → t.Correct) ∧
  (∀ s : State, s.Correct → s.ph = .done → hash s.msg s.len.toNat = .ok s.digest)

/-! ## Runs -/

/-- 42_schedule.md rule R128: UNPACK and the sixty-four EXPAND steps leave `W = expand(unpack(BLK))`. -/
def Obligations.ScheduleStepsExpandTheBlock : Prop :=
  ∀ s : State, s.Inv → s.Quiet → s.ph = .unpack →
    Host.Core.run core 65 s = .next { s with w := expand (unpack s.blk), t := 80#7, ph := .load }

/-- 43_compress.md rule R145: LOAD and the eighty ROUND.* steps leave `S = compress(H, W)` and keep `H`. -/
def Obligations.RoundStepsCompressTheBlock : Prop :=
  ∀ s : State, s.Inv → s.Quiet → s.ph = .load →
    Host.Core.run core 81 s = .next { s with s := compress s.h s.w, t := 80#7, ph := .accum }

/-- 43_compress.md rules R146, R147 and R148: the 148 steps of a block absorb that block of the message into `H` and go on
to the next block, or to the formatter after the last. -/
def Obligations.BlockStepsAbsorbTheBlock : Prop :=
  ∀ s : State, s.Inv → s.Quiet → s.ph = .frame →
    ∃ (b : Block) (bi : BitVec 56), block s.msg s.len.toNat s.bi.toNat = some b ∧ bi.toNat = s.bi.toNat + 1 ∧
      Host.Core.run core 148 s = .next { s with
        h := absorb s.h b
        s := compress s.h (expand (unpack b))
        w := expand (unpack b)
        blk := b
        bi := bi
        t := 80#7
        ph := if s.bi.toNat + 1 = s.nb.toNat then .fmt else .frame }

/-- 45_transaction.md rules R170 and R177 (b), 70_reset_and_hazards.md rule R240: an accepted transaction is in `DONE`
after exactly START and `2 + 148 * N(L)` micro-operations, busy at every step before, with the hash of the message the
host presented in `H` and `DIGEST`. -/
def Obligations.TransactionComputesHash : Prop :=
  ∀ s : State, s.Commanded → s.ports.len.toNat < 2 ^ 61 →
    (∃ t : State, Host.Core.run core (1 + (2 + 148 * blockCount s.ports.len.toNat)) s = .next t ∧
      t.ph = .done ∧ t.err = false ∧ t.len = s.ports.len ∧
      hash s.ports.msg s.ports.len.toNat = .ok t.digest ∧ t.digest = format t.h) ∧
    (∀ k : Nat, 1 ≤ k → k < 1 + (2 + 148 * blockCount s.ports.len.toNat) →
      ∃ u : State, Host.Core.run core k s = .next u ∧ u.ph.resting = false)

/-- 45_transaction.md rule R177 (a), 60_exceptions.md rule R203: a refused length is in `ERROR` after START and CHK, every
datapath register and counter as before the START, and stays there. -/
def Obligations.RefusedTransactionEndsInError : Prop :=
  ∀ s : State, s.Commanded → 2 ^ 61 ≤ s.ports.len.toNat → ∀ n : Nat,
    Host.Core.run core (2 + n) s =
      .next { s.consume with len := s.ports.len, err := true, ph := .error, msg := s.ports.msg }

/-- 45_transaction.md rules R177 (c) and R179, 10_state.md rule R39: what a transaction leaves does not depend on what
any register held before it: two states with the same port lines end in the same registers (the model's own counter of
RESETs apart). -/
def Obligations.TransactionsAreIndependent : Prop :=
  ∀ s s' : State, s.Commanded → s'.Commanded → s'.ports = s.ports → s.ports.len.toNat < 2 ^ 61 →
    ∃ t t' : State,
      Host.Core.run core (1 + (2 + 148 * blockCount s.ports.len.toNat)) s = .next t ∧
      Host.Core.run core (1 + (2 + 148 * blockCount s.ports.len.toNat)) s' = .next t' ∧
      { t' with free := t.free } = t

/-- 30_encoding.md rule R88, 40_padder.md rule R108 (a), 45_transaction.md rule R176: the operations of a transaction, in
order, are those of the pseudo-operation HASH. -/
def Obligations.TransactionPerformsHashSequence : Prop :=
  ∀ s : State, s.Commanded →
    trace (pseudoHash s.ports.len).length s = pseudoHash s.ports.len ∧
    (pseudoHash s.ports.len).length =
      if 2 ^ 61 ≤ s.ports.len.toNat then 2 else 1 + (2 + 148 * blockCount s.ports.len.toNat)

/-- 20_memory.md rule R57, 45_transaction.md rule R177: an accepted transaction asks for the indexes `0` to `len - 1`, each
once and in rising order, a refused one for none; and no operation sees a message byte that it does not ask for. -/
def Obligations.TransactionReadsEachByteOnce : Prop :=
  (∀ s : State, s.Commanded → s.ports.len.toNat < 2 ^ 61 →
    indexesRead (1 + (2 + 148 * blockCount s.ports.len.toNat)) s = List.range s.ports.len.toNat) ∧
  (∀ s : State, s.Commanded → 2 ^ 61 ≤ s.ports.len.toNat → ∀ n : Nat, indexesRead n s = []) ∧
  (∀ (i : Instr) (s t : State), exec i s = .next t → ∀ a : Nat, a ∈ messageReads i s → a < s.len.toNat) ∧
  (∀ (i : Instr) (s t : State) (m : Memory), (∀ len : BitVec 64, i ≠ .start len) → exec i s = .next t →
    (∀ a : Nat, a ∈ messageReads i s → Memory.read s.msg a = Memory.read m a) →
    exec i { s with msg := m } = .next { t with msg := m })

/-! ## Ports -/

/-- 10_state.md rule R33, 30_encoding.md rules R78 and R79: the status and error codes as a function of `PH` and `ERR`. -/
def Obligations.StatusCodesFollowPhase : Prop :=
  ∀ s : State,
    (s.statusPort = 0#2 ↔ s.ph = .idle) ∧
    (s.statusPort = 1#2 ↔ s.ph ≠ .idle ∧ s.ph ≠ .done ∧ s.ph ≠ .error) ∧
    (s.statusPort = 2#2 ↔ s.ph = .done) ∧
    (s.statusPort = 3#2 ↔ s.ph = .error) ∧
    (s.errPort = 1#1 ↔ s.err = true) ∧ (s.errPort = 0#1 ↔ s.err = false)

/-- 10_state.md rule R34, 20_memory.md rule R62 (b): while `STATUS = DONE` the result ports show `H` and `DIGEST`, on
every read, and they are the hash of the message and its rendering. -/
def Obligations.ResultPortsShowTheHashInDone : Prop :=
  ∀ s : State, s.statusPort = 2#2 →
    (∀ (read : Nat) (k : Fin 5), s.hPort read k = s.h.get k) ∧
    (∀ (read : Nat) (k : Fin 40), s.digestPort read k = s.digest[k]) ∧
    (s.Correct → ∀ read : Nat,
      hash s.msg s.len.toNat = .ok (Vector.ofFn fun k : Fin 40 => s.digestPort read k) ∧
      ∀ k : Fin 40, s.digestPort read k = (format s.h)[k])
end

