-- ==== Sys2Proof/Laws/Memory.lean ====
section
/-! SUPPORT. The message space: reading back what was written, and the canonical form, kept by every operation on it. -/

namespace Sys2Proof.Machine

theorem Memory.read_nil (a : Nat) : Memory.read [] a = 0#8 := rfl

/-- An index below every listed one holds `00`. -/
theorem Memory.read_of_wfFrom_lt (m : Memory) (lo a : Nat) (hm : Memory.wfFrom lo m = true) (ha : a < lo) :
    Memory.read m a = 0#8 := by
  induction m generalizing lo with
  | nil => rfl
  | cons cell rest ih =>
    obtain ⟨k, b⟩ := cell
    simp only [Memory.wfFrom, Bool.and_eq_true, decide_eq_true_eq] at hm
    have hk : k ≠ a := by omega
    simp only [Memory.read, hk, if_false]
    exact ih (k + 1) hm.2 (by omega)

theorem Memory.wfFrom_mono (m : Memory) (lo lo' : Nat) (h : lo' ≤ lo) (hm : Memory.wfFrom lo m = true) :
    Memory.wfFrom lo' m = true := by
  cases m with
  | nil => rfl
  | cons cell rest =>
    obtain ⟨k, b⟩ := cell
    simp only [Memory.wfFrom, Bool.and_eq_true, decide_eq_true_eq] at hm ⊢
    exact ⟨⟨⟨by omega, hm.1.1.2⟩, hm.1.2⟩, hm.2⟩

/-- A write keeps the canonical form from any bound that the written index keeps. -/
theorem Memory.write_wfFrom (m : Memory) (lo : Nat) (a : BitVec 61) (b : Byte) (ha : lo ≤ a.toNat)
    (hm : Memory.wfFrom lo m = true) : Memory.wfFrom lo (Memory.write m a b) = true := by
  have hlt := a.isLt
  induction m generalizing lo with
  | nil =>
    unfold Memory.write
    split
    · rfl
    · next hb => simp [Memory.wfFrom, ha, hb, hlt]
  | cons cell rest ih =>
    obtain ⟨k, c⟩ := cell
    have hm' := hm
    simp only [Memory.wfFrom, Bool.and_eq_true, decide_eq_true_eq] at hm
    unfold Memory.write
    split
    · next hak =>
      split
      · exact hm'
      · next hb =>
        simp only [Memory.wfFrom, Bool.and_eq_true, decide_eq_true_eq]
        exact ⟨⟨⟨ha, hlt⟩, hb⟩, ⟨⟨by omega, hm.1.1.2⟩, hm.1.2⟩, hm.2⟩
    · split
      · next hak =>
        split
        · exact Memory.wfFrom_mono _ _ _ (by omega) hm.2
        · next hb =>
          simp only [Memory.wfFrom, Bool.and_eq_true, decide_eq_true_eq]
          exact ⟨⟨⟨ha, hlt⟩, hb⟩, hak ▸ hm.2⟩
      · next h1 h2 =>
        simp only [Memory.wfFrom, Bool.and_eq_true, decide_eq_true_eq]
        exact ⟨hm.1, ih (k + 1) (by omega) hm.2⟩

/-- Every write keeps the canonical form. -/
theorem Memory.write_wf (m : Memory) (a : BitVec 61) (b : Byte) (hm : Memory.wf m = true) :
    Memory.wf (Memory.write m a b) = true :=
  Memory.write_wfFrom m 0 a b (Nat.zero_le _) hm

theorem Memory.writeBytes_wf (bytes : List Byte) (m : Memory) (base : Nat) (hm : Memory.wf m = true) :
    Memory.wf (Memory.writeBytes m base bytes) = true := by
  induction bytes generalizing m base with
  | nil => exact hm
  | cons b rest ih => exact ih _ _ (Memory.write_wf m _ b hm)

/-- The message space of a byte sequence is in canonical form. -/
theorem Memory.ofBytes_wf (bytes : List Byte) : Memory.wf (Memory.ofBytes bytes) = true :=
  Memory.writeBytes_wf bytes [] 0 rfl

/-- Nothing is listed at reset, which is canonical. -/
theorem State.reset_msg_wf : Memory.wf State.reset.msg = true ∧ Memory.wf State.reset.ports.msg = true := ⟨rfl, rfl⟩

/-- A read after a write to the same index gives the byte written. -/
theorem Memory.read_write_same (m : Memory) (lo : Nat) (a : BitVec 61) (b : Byte) (hm : Memory.wfFrom lo m = true) :
    Memory.read (Memory.write m a b) a.toNat = b := by
  induction m generalizing lo with
  | nil =>
    unfold Memory.write
    split
    · next hb => simp [Memory.read, hb]
    · simp [Memory.read]
  | cons cell rest ih =>
    obtain ⟨k, c⟩ := cell
    have hm' := hm
    simp only [Memory.wfFrom, Bool.and_eq_true, decide_eq_true_eq] at hm
    unfold Memory.write
    split
    · next hak =>
      split
      · next hb =>
        rw [hb]
        refine Memory.read_of_wfFrom_lt _ k _ ?_ hak
        simp only [Memory.wfFrom, Bool.and_eq_true, decide_eq_true_eq]
        exact ⟨⟨⟨Nat.le_refl _, hm.1.1.2⟩, hm.1.2⟩, hm.2⟩
      · simp [Memory.read]
    · split
      · next hak =>
        split
        · next hb =>
          rw [hb]
          exact Memory.read_of_wfFrom_lt _ (k + 1) _ hm.2 (by omega)
        · simp [Memory.read]
      · next h1 h2 =>
        have hk : k ≠ a.toNat := fun h => h2 h.symm
        simp only [Memory.read, hk, if_false]
        exact ih (k + 1) hm.2

/-- A write leaves every other index alone. -/
theorem Memory.read_write_other (m : Memory) (a : BitVec 61) (b : Byte) (x : Nat) (hx : x ≠ a.toNat) :
    Memory.read (Memory.write m a b) x = Memory.read m x := by
  induction m with
  | nil =>
    unfold Memory.write
    split
    · rfl
    · simp [Memory.read, Ne.symm hx]
  | cons cell rest ih =>
    obtain ⟨k, c⟩ := cell
    unfold Memory.write
    split
    · split
      · rfl
      · simp [Memory.read, Ne.symm hx]
    · split
      · next hak =>
        split <;> simp [Memory.read, Ne.symm hx, ← hak]
      · simp only [Memory.read]
        split
        · rfl
        · exact ih

end Sys2Proof.Machine
end

