-- ==== Sys2Proof/Laws/State.lean ====
section
/-! SUPPORT. One lemma per field of each update of the state, so that no later proof unfolds a record update. -/

namespace Sys2Proof.Machine

/-! The step's sampling of the port lines. -/

@[simp] theorem State.consume_h (s : State) : s.consume.h = s.h := rfl
@[simp] theorem State.consume_s (s : State) : s.consume.s = s.s := rfl
@[simp] theorem State.consume_w (s : State) : s.consume.w = s.w := rfl
@[simp] theorem State.consume_blk (s : State) : s.consume.blk = s.blk := rfl
@[simp] theorem State.consume_digest (s : State) : s.consume.digest = s.digest := rfl
@[simp] theorem State.consume_len (s : State) : s.consume.len = s.len := rfl
@[simp] theorem State.consume_nb (s : State) : s.consume.nb = s.nb := rfl
@[simp] theorem State.consume_bi (s : State) : s.consume.bi = s.bi := rfl
@[simp] theorem State.consume_t (s : State) : s.consume.t = s.t := rfl
@[simp] theorem State.consume_ph (s : State) : s.consume.ph = s.ph := rfl
@[simp] theorem State.consume_err (s : State) : s.consume.err = s.err := rfl
@[simp] theorem State.consume_msg (s : State) : s.consume.msg = s.msg := rfl
@[simp] theorem State.consume_free (s : State) : s.consume.free = s.free := rfl

/-! The exception's entry. -/

@[simp] theorem State.raiseLengthOverflow_h (s : State) : s.raiseLengthOverflow.h = s.h := rfl
@[simp] theorem State.raiseLengthOverflow_s (s : State) : s.raiseLengthOverflow.s = s.s := rfl
@[simp] theorem State.raiseLengthOverflow_w (s : State) : s.raiseLengthOverflow.w = s.w := rfl
@[simp] theorem State.raiseLengthOverflow_blk (s : State) : s.raiseLengthOverflow.blk = s.blk := rfl
@[simp] theorem State.raiseLengthOverflow_digest (s : State) : s.raiseLengthOverflow.digest = s.digest := rfl
@[simp] theorem State.raiseLengthOverflow_len (s : State) : s.raiseLengthOverflow.len = s.len := rfl
@[simp] theorem State.raiseLengthOverflow_nb (s : State) : s.raiseLengthOverflow.nb = s.nb := rfl
@[simp] theorem State.raiseLengthOverflow_bi (s : State) : s.raiseLengthOverflow.bi = s.bi := rfl
@[simp] theorem State.raiseLengthOverflow_t (s : State) : s.raiseLengthOverflow.t = s.t := rfl
@[simp] theorem State.raiseLengthOverflow_ph (s : State) : s.raiseLengthOverflow.ph = .error := rfl
@[simp] theorem State.raiseLengthOverflow_err (s : State) : s.raiseLengthOverflow.err = true := rfl
@[simp] theorem State.raiseLengthOverflow_msg (s : State) : s.raiseLengthOverflow.msg = s.msg := rfl
@[simp] theorem State.raiseLengthOverflow_ports (s : State) : s.raiseLengthOverflow.ports = s.ports := rfl
@[simp] theorem State.raiseLengthOverflow_free (s : State) : s.raiseLengthOverflow.free = s.free := rfl

/-! The start of a transaction. -/

@[simp] theorem State.beginTransaction_h (s : State) (len : BitVec 64) : (s.beginTransaction len).h = s.h := rfl
@[simp] theorem State.beginTransaction_s (s : State) (len : BitVec 64) : (s.beginTransaction len).s = s.s := rfl
@[simp] theorem State.beginTransaction_w (s : State) (len : BitVec 64) : (s.beginTransaction len).w = s.w := rfl
@[simp] theorem State.beginTransaction_blk (s : State) (len : BitVec 64) : (s.beginTransaction len).blk = s.blk := rfl
@[simp] theorem State.beginTransaction_digest (s : State) (len : BitVec 64) : (s.beginTransaction len).digest = s.digest := rfl
@[simp] theorem State.beginTransaction_len (s : State) (len : BitVec 64) : (s.beginTransaction len).len = len := rfl
@[simp] theorem State.beginTransaction_nb (s : State) (len : BitVec 64) : (s.beginTransaction len).nb = s.nb := rfl
@[simp] theorem State.beginTransaction_bi (s : State) (len : BitVec 64) : (s.beginTransaction len).bi = s.bi := rfl
@[simp] theorem State.beginTransaction_t (s : State) (len : BitVec 64) : (s.beginTransaction len).t = s.t := rfl
@[simp] theorem State.beginTransaction_ph (s : State) (len : BitVec 64) : (s.beginTransaction len).ph = .chk := rfl
@[simp] theorem State.beginTransaction_err (s : State) (len : BitVec 64) : (s.beginTransaction len).err = false := rfl
@[simp] theorem State.beginTransaction_msg (s : State) (len : BitVec 64) : (s.beginTransaction len).msg = s.ports.msg := rfl
@[simp] theorem State.beginTransaction_ports (s : State) (len : BitVec 64) : (s.beginTransaction len).ports = s.ports := rfl
@[simp] theorem State.beginTransaction_free (s : State) (len : BitVec 64) : (s.beginTransaction len).free = s.free := rfl

/-! The end of a FRAME.* operation. -/

@[simp] theorem State.leaveFrame_h (s : State) (b : Block) : (s.leaveFrame b).h = s.h := rfl
@[simp] theorem State.leaveFrame_s (s : State) (b : Block) : (s.leaveFrame b).s = s.s := rfl
@[simp] theorem State.leaveFrame_w (s : State) (b : Block) : (s.leaveFrame b).w = s.w := rfl
@[simp] theorem State.leaveFrame_blk (s : State) (b : Block) : (s.leaveFrame b).blk = b := rfl
@[simp] theorem State.leaveFrame_digest (s : State) (b : Block) : (s.leaveFrame b).digest = s.digest := rfl
@[simp] theorem State.leaveFrame_len (s : State) (b : Block) : (s.leaveFrame b).len = s.len := rfl
@[simp] theorem State.leaveFrame_nb (s : State) (b : Block) : (s.leaveFrame b).nb = s.nb := rfl
@[simp] theorem State.leaveFrame_bi (s : State) (b : Block) : (s.leaveFrame b).bi = s.bi := rfl
@[simp] theorem State.leaveFrame_t (s : State) (b : Block) : (s.leaveFrame b).t = s.t := rfl
@[simp] theorem State.leaveFrame_ph (s : State) (b : Block) : (s.leaveFrame b).ph = .unpack := rfl
@[simp] theorem State.leaveFrame_err (s : State) (b : Block) : (s.leaveFrame b).err = s.err := rfl
@[simp] theorem State.leaveFrame_msg (s : State) (b : Block) : (s.leaveFrame b).msg = s.msg := rfl
@[simp] theorem State.leaveFrame_ports (s : State) (b : Block) : (s.leaveFrame b).ports = s.ports := rfl
@[simp] theorem State.leaveFrame_free (s : State) (b : Block) : (s.leaveFrame b).free = s.free := rfl

/-! RESET, where the spec fixes the register. -/

@[simp] theorem State.toReset_ph (s : State) : s.toReset.ph = .idle := rfl
@[simp] theorem State.toReset_err (s : State) : s.toReset.err = false := rfl
@[simp] theorem State.toReset_msg (s : State) : s.toReset.msg = s.msg := rfl
@[simp] theorem State.toReset_ports (s : State) : s.toReset.ports = s.ports := rfl
@[simp] theorem State.toReset_free (s : State) : s.toReset.free = s.free + 1 := rfl

@[simp] theorem State.consume_rst (s : State) : s.consume.ports.rst = false := rfl
@[simp] theorem State.consume_start (s : State) : s.consume.ports.start = false := rfl
@[simp] theorem State.consume_portLen (s : State) : s.consume.ports.len = s.ports.len := rfl
@[simp] theorem State.consume_portMsg (s : State) : s.consume.ports.msg = s.ports.msg := rfl

/-- Without a pending host event the sampling of the port lines changes nothing. -/
theorem State.consume_of_quiet (s : State) (hr : s.ports.rst = false) (hs : s.ports.start = false) : s.consume = s := by
  obtain ⟨h, s', w, blk, digest, len, nb, bi, t, ph, err, msg, ⟨rst, start, plen, pmsg⟩, free⟩ := s
  simp only at hr hs
  subst hr hs
  rfl

end Sys2Proof.Machine
end

