-- ==== Sys2Proof/Laws/Ops.lean ====
section
/-! SUPPORT. What each shared operation can do, said once: a proof about a meaning cites these and does not unfold the
operation again. -/

namespace Sys2Proof.Machine

theorem State.lengthOverflows_iff (s : State) : s.lengthOverflows = true ↔ lengthLimit ≤ s.len.toNat := by
  simp [State.lengthOverflows]

/-- `MemRead` answers exactly below `LEN`. -/
theorem State.memRead_isSome (s : State) (a : Nat) : (s.memRead a).isSome = true ↔ a < s.len.toNat := by
  unfold State.memRead
  split <;> simp_all

theorem State.memRead_of_lt (s : State) (a : Nat) (h : a < s.len.toNat) : s.memRead a = some (Memory.read s.msg a) := by
  simp [State.memRead, h]

/-- A span of indexes exists when it is empty or ends within the message. -/
theorem State.indexesExist_iff (s : State) (base n : Nat) :
    s.indexesExist base n = true ↔ n = 0 ∨ base + n ≤ s.len.toNat := by
  simp only [State.indexesExist, List.all_eq_true, List.mem_range, State.memRead_isSome]
  constructor
  · intro h
    rcases Nat.eq_zero_or_pos n with h0 | h0
    · exact .inl h0
    · have := h (n - 1) (by omega)
      exact .inr (by omega)
  · rintro (h | h) k hk <;> omega

/-- The states that no unreachable state of 30_encoding.md rule R84 is among. -/
theorem State.unreachable_eq_none_iff (s : State) :
    s.unreachable = none ↔
      (s.err = true ↔ s.ph = .error) ∧
      (s.ph.resting = false → s.ph ≠ .chk → s.len.toNat < lengthLimit) ∧
      (s.ph.onBlock = true → s.bi.toNat < s.nb.toNat) ∧
      (s.indexLive = true → s.t.toNat ≤ 80) := by
  unfold State.unreachable
  split
  · next h =>
    cases he : s.err <;> simp_all
  · next h =>
    have h' : s.err = true ↔ s.ph = .error := by
      cases he : s.err <;> simp_all
    split
    · next hl => simp_all [State.lengthOverflows]
    · next hl =>
      split
      · next hb => simp_all
      · next hb =>
        split
        · next ht => simp_all
        · next ht => simp_all [State.lengthOverflows]

/-- Everything a reading FRAME.* operation can answer. -/
theorem frameReading_cases (base n : Nat) (b : Block) (s : State) :
    (lengthLimit ≤ s.len.toNat ∧ frameReading base n b s = .refused .lengthInBusy) ∨
    (s.len.toNat < lengthLimit ∧ (n = 0 ∨ base + n ≤ s.len.toNat) ∧ frameReading base n b s = .next (s.leaveFrame b)) ∨
    (s.len.toNat < lengthLimit ∧ n ≠ 0 ∧ s.len.toNat < base + n ∧ frameReading base n b s = .fault .messageIndexOutside) := by
  unfold frameReading
  by_cases hl : lengthLimit ≤ s.len.toNat
  · exact .inl ⟨hl, by simp [(State.lengthOverflows_iff s).2 hl]⟩
  · have hl' : s.lengthOverflows = false := by
      simpa [State.lengthOverflows] using hl
    by_cases hi : n = 0 ∨ base + n ≤ s.len.toNat
    · exact .inr (.inl ⟨by omega, hi, by simp [hl', (State.indexesExist_iff s base n).2 hi]⟩)
    · have hi' : s.indexesExist base n = false := by
        rw [← Bool.not_eq_true, State.indexesExist_iff]
        exact hi
      exact .inr (.inr ⟨by omega, by omega, by omega, by simp [hl', hi']⟩)

/-- A reading FRAME.* operation whose indexes exist leaves its block. -/
theorem frameReading_next (base n : Nat) (b : Block) (s : State) (hl : s.len.toNat < lengthLimit)
    (hi : n = 0 ∨ base + n ≤ s.len.toNat) : frameReading base n b s = .next (s.leaveFrame b) := by
  have h1 : s.lengthOverflows = false := by
    simpa [State.lengthOverflows] using hl
  simp [frameReading, h1, (State.indexesExist_iff s base n).2 hi]

/-- A ROUND.* operation inside its quarter performs the round. -/
theorem roundStep_next (lo : Nat) (f : Word → Word → Word → Word) (k : Word) (s : State)
    (h : lo ≤ s.t.toNat ∧ s.t.toNat < lo + 20 ∧ s.t.toNat < 80) :
    roundStep lo f k s =
      .next { s with
        s := roundWith f k s.s (s.w[s.t.toNat]'h.2.2)
        t := s.t + 1
        ph := if s.t.toNat + 1 = 80 then .accum else .round } := by
  simp [roundStep, h]

/-- A ROUND.* operation outside its quarter is refused by name. -/
theorem roundStep_refused (lo : Nat) (f : Word → Word → Word → Word) (k : Word) (s : State)
    (h : ¬(lo ≤ s.t.toNat ∧ s.t.toNat < lo + 20 ∧ s.t.toNat < 80)) : roundStep lo f k s = .refused .indexT := by
  simp only [roundStep, h, dif_neg, not_false_eq_true]

/-- The two operands of the accumulation, as one wrapping sum. -/
theorem add32_pair (x y : Word) : add32 [x, y] = x + y := by
  apply BitVec.eq_of_toNat_eq
  simp [add32, BitVec.toNat_add]

/-- The five operands of a round, as wrapping sums in any grouping. -/
theorem add32_five (x1 x2 x3 x4 x5 : Word) : add32 [x1, x2, x3, x4, x5] = x1 + x2 + x3 + x4 + x5 := by
  apply BitVec.eq_of_toNat_eq
  simp [add32, BitVec.toNat_add]
  omega

/-- An accepted length has at most `2^55 + 1` blocks, so `NB` holds the count exactly. -/
theorem blockCount_toNat (L : Nat) (h : L < lengthLimit) : (BitVec.ofNat 56 (blockCount L)).toNat = blockCount L := by
  rw [BitVec.toNat_ofNat]
  apply Nat.mod_eq_of_lt
  unfold blockCount fullBlocks tailLength lengthLimit at *
  split <;> omega

end Sys2Proof.Machine
end

