-- ==== Sys2Proof/Laws/PerInstr.lean ====
section
/-! SUPPORT. Per-instruction statements about the operations as syntax: the encoder forms the word that the core and the
host form (30_encoding.md rules R77 and R83), with `SUB = 0` wherever the row ignores it. -/

namespace Sys2Proof.Laws.Encoding

/-- The word of the operation is canonical, and so selects an operation. -/
def Statement (i : Instr) : Prop := (encode i).canonical = true ∧ (encode i).wellFormed = true

theorem reset : Statement .reset := ⟨rfl, rfl⟩

theorem start (len : BitVec 64) : Statement (.start len) := by
  have h : (1#1 ++ len).getLsbD 64 = true := by
    rw [BitVec.getLsbD_append]
    rfl
  exact ⟨h, h⟩

theorem holdIdle : Statement .holdIdle := ⟨rfl, rfl⟩

theorem chk : Statement .chk := ⟨rfl, rfl⟩

theorem frameFull : Statement .frameFull := ⟨rfl, rfl⟩

theorem frameFinal : Statement .frameFinal := ⟨rfl, rfl⟩

theorem frameFill : Statement .frameFill := ⟨rfl, rfl⟩

theorem frameLen : Statement .frameLen := ⟨rfl, rfl⟩

theorem unpack : Statement .unpack := ⟨rfl, rfl⟩

theorem expand : Statement .expand := ⟨rfl, rfl⟩

theorem load : Statement .load := ⟨rfl, rfl⟩

theorem roundCh : Statement .roundCh := ⟨rfl, rfl⟩

theorem roundPar1 : Statement .roundPar1 := ⟨rfl, rfl⟩

theorem roundMaj : Statement .roundMaj := ⟨rfl, rfl⟩

theorem roundPar2 : Statement .roundPar2 := ⟨rfl, rfl⟩

theorem accum : Statement .accum := ⟨rfl, rfl⟩

theorem fmt : Statement .fmt := ⟨rfl, rfl⟩

theorem holdDone : Statement .holdDone := ⟨rfl, rfl⟩

theorem holdError : Statement .holdError := ⟨rfl, rfl⟩

end Sys2Proof.Laws.Encoding
end

