-- ==== Sys2Proof/Laws/Step.lean ====
section
/-! SUPPORT. What a step can do, said once: it performs the fetched operation on the state with the strobes consumed; which
operation that is, phase by phase. -/

namespace Sys2Proof.Machine

theorem step_of_fetch (s : State) (i : Instr) (h : s.fetch = .ok i) : step s = exec i s.consume := by
  simp [step, h]

/-- The inversion of a step that goes on. -/
theorem step_next_iff (s t : State) : step s = .next t ↔ ∃ i, s.fetch = .ok i ∧ exec i s.consume = .next t := by
  unfold step
  cases hf : s.fetch with
  | error r => simp
  | ok i => simp

/-- Decoding a control word is decoding its two fields. -/
theorem decode_controlWord (ph : BitVec 4) (sub : BitVec 2) : decode (.cw (ph ++ sub)) = decodeControl ph sub := by
  have h1 : (ph ++ sub).extractLsb' 2 4 = ph := by
    revert ph sub
    decide
  have h2 : (ph ++ sub).extractLsb' 0 2 = sub := by
    revert ph sub
    decide
  simp only [decode, h1, h2]

/-- Decoding the command word of raised lines is START with the `len` port. -/
theorem decode_command (p : Ports) (h : p.start = true) : decode (.cmd p.command) = .ok (.start p.len) := by
  have h1 : p.command.extractLsb' 64 1 = 1#1 := by
    simp only [Ports.command, h, BitVec.ofBool_true]
    apply BitVec.eq_of_getLsbD_eq
    intro i hi
    have : i = 0 := by omega
    subst this
    rw [BitVec.getLsbD_extractLsb', BitVec.getLsbD_append]
    rfl
  have h2 : p.command.extractLsb' 0 64 = p.len := by
    simp only [Ports.command, h, BitVec.ofBool_true]
    apply BitVec.eq_of_getLsbD_eq
    intro i hi
    rw [BitVec.getLsbD_extractLsb', BitVec.getLsbD_append]
    simp [hi]
  simp only [decode, h1, h2, if_true]

/-- With no host event and no unreachable state the control word selects. -/
theorem operationWord_own (s : State) (hr : s.ports.rst = false) (hs : (s.ports.start && s.ph.resting) = false)
    (hu : s.unreachable = none) (w : BitVec 6) (hw : s.controlWord = .ok w) : s.operationWord = .ok (.cw w) := by
  simp [State.operationWord, hr, hs, hu, hw]

/-- Outside `FRAME` and `ROUND` the operation is the one the map gives the phase. -/
theorem fetch_own (s : State) (hr : s.ports.rst = false) (hs : (s.ports.start && s.ph.resting) = false)
    (hu : s.unreachable = none) (hf : s.ph ≠ .frame) (hn : s.ph ≠ .round) (i : Instr)
    (hi : decodeControl s.ph.code 0#2 = .ok i) : s.fetch = .ok i := by
  have hw : s.controlWord = .ok (s.ph.code ++ 0#2) := by
    unfold State.controlWord
    split <;> simp_all
  simp only [State.fetch, operationWord_own s hr hs hu _ hw, decode_controlWord, hi]

/-- In `FRAME` the operation is the one of the frame class. -/
theorem fetch_frame (s : State) (hr : s.ports.rst = false) (hp : s.ph = .frame) (hu : s.unreachable = none)
    (fc : BitVec 2) (hc : frameClass s.len.toNat s.bi.toNat = some fc) (i : Instr)
    (hi : decodeControl 2#4 fc = .ok i) : s.fetch = .ok i := by
  have hw : s.controlWord = .ok (2#4 ++ fc) := by
    simp [State.controlWord, hp, hc, Phase.code]
  have hs : (s.ports.start && s.ph.resting) = false := by
    simp [hp, Phase.resting]
  simp only [State.fetch, operationWord_own s hr hs hu _ hw, decode_controlWord, hi]

/-- In `ROUND` the operation is the one of the quarter. -/
theorem fetch_round (s : State) (hr : s.ports.rst = false) (hp : s.ph = .round) (hu : s.unreachable = none)
    (q : BitVec 2) (hq : quarter s.t.toNat = some q) (i : Instr) (hi : decodeControl 6#4 q = .ok i) :
    s.fetch = .ok i := by
  have hw : s.controlWord = .ok (6#4 ++ q) := by
    simp [State.controlWord, hp, hq, Phase.code]
  have hs : (s.ports.start && s.ph.resting) = false := by
    simp [hp, Phase.resting]
  simp only [State.fetch, operationWord_own s hr hs hu _ hw, decode_controlWord, hi]

/-- A state that keeps the invariants is none of the unreachable ones. -/
theorem State.Inv.reachable {s : State} (h : s.Inv) : s.unreachable = none :=
  (State.unreachable_eq_none_iff s).2
    ⟨h.errorFlag, fun hr hc => (h.accepted hr hc).1, h.blockIndex, h.indexBound⟩

/-- In a resting phase only `ERR` and `T` can make a state unreachable. -/
theorem unreachable_eq_none_of_resting (s : State) (hr : s.ph.resting = true) (he : s.err = true ↔ s.ph = .error)
    (ht : s.indexBounded) : s.unreachable = none := by
  refine (State.unreachable_eq_none_iff s).2 ⟨he, ?_, ?_, ht⟩
  · simp [hr]
  · cases hp : s.ph <;> simp_all [Phase.resting, Phase.onBlock]

end Sys2Proof.Machine
end

