-- ==== Sys2Proof/Tests/Slice0.lean ====
section
/-! SUPPORT. Tests: words and ill-formed terms, one step at a time against values of 95_test_vectors.md, 96_traces.md and
the examples of the rules, and a witness for the hypotheses of every statement that has some. -/

namespace Sys2Proof.Tests

open Sys2Proof Sys2Proof.Machine

/-- The next state, if there is one. -/
def next? : Outcome → Option State
  | .next t => some t
  | .fault _ => none
  | .refused _ => none

/-- The refusal, if there is one. -/
def refusal? : Outcome → Option Refusal
  | .next _ => none
  | .fault _ => none
  | .refused r => some r

/-- A block phase of a message of `len` bytes. -/
def inPhase (ph : Phase) (len : BitVec 64) (nb bi : BitVec 56) (t : BitVec 7) : State :=
  { State.reset with ph := ph, len := len, nb := nb, bi := bi, t := t }

/-- `IV` in the working registers. -/
def ivWorking : SRegs := ⟨0x67452301, 0xEFCDAB89, 0x98BADCFE, 0x10325476, 0xC3D2E1F0⟩

/-! ## Well-formedness: a term that each check refuses -/

/-- `rst = 0` is no reset (30_encoding.md R77). -/
theorem test_wf_rst_low : RawWord.wellFormed (.rst 0) = false := by decide
/-- `start = 0` is "no command" (R77). -/
theorem test_wf_no_command : RawWord.wellFormed (.cmd 0x0FFFFFFFFFFFFFFFF) = false := by decide
/-- Phase code 11 is reserved (R84). -/
theorem test_wf_reserved_phase : RawWord.wellFormed (.cw 0b101100) = false := by decide
/-- Phase code 10 is the last legal one (R80). -/
theorem test_wf_last_phase : RawWord.wellFormed (.cw 0b101011) = true := by decide
/-- `SUB` is 0 outside `FRAME` and `ROUND` (R83). -/
theorem test_wf_sub_not_zero : RawWord.canonical (.cw 0b000101) = false := by decide
/-- A message space not in rising order. -/
theorem test_wf_memory_order : Memory.wf [(2, 0x61), (1, 0x62)] = false := by decide
/-- A message space that lists a byte `00`. -/
theorem test_wf_memory_zero : Memory.wf [(1, 0x00)] = false := by decide
/-- A message space with an index of 2^61 (20_memory.md R51). -/
theorem test_wf_memory_index : Memory.wf [(2 ^ 61, 0x61)] = false := by decide
/-- "abc" as a message space (95_test_vectors.md P2). -/
theorem test_wf_memory_abc : Memory.ofBytes [0x61, 0x62, 0x63] = [(0, 0x61), (1, 0x62), (2, 0x63)] := by decide
/-- A message byte `00` is read back though it is not listed. -/
theorem test_memory_zero_byte :
    (Memory.read (Memory.ofBytes [0x61, 0x00, 0x63]) 1, Memory.read (Memory.ofBytes [0x61, 0x00, 0x63]) 2) = (0x00, 0x63) := by
  decide

/-! ## Decoding: one word per row, written out from 30_encoding.md R77 and R83 -/

theorem test_decode_reset : decode (.rst 0b1) = .ok .reset := rfl
theorem test_decode_start : decode (.cmd (0b1#1 ++ 0x2000000000000000#64)) = .ok (.start 0x2000000000000000) := rfl
theorem test_decode_hold_idle : decode (.cw 0b000010) = .ok .holdIdle := rfl
theorem test_decode_chk : decode (.cw 0b000100) = .ok .chk := rfl
theorem test_decode_frame_full : decode (.cw 0b001000) = .ok .frameFull := rfl
theorem test_decode_frame_final : decode (.cw 0b001001) = .ok .frameFinal := rfl
theorem test_decode_frame_fill : decode (.cw 0b001010) = .ok .frameFill := rfl
theorem test_decode_frame_len : decode (.cw 0b001011) = .ok .frameLen := rfl
theorem test_decode_unpack : decode (.cw 0b001111) = .ok .unpack := rfl
theorem test_decode_expand : decode (.cw 0b010000) = .ok .expand := rfl
theorem test_decode_load : decode (.cw 0b010100) = .ok .load := rfl
theorem test_decode_round_ch : decode (.cw 0b011000) = .ok .roundCh := rfl
theorem test_decode_round_par1 : decode (.cw 0b011001) = .ok .roundPar1 := rfl
theorem test_decode_round_maj : decode (.cw 0b011010) = .ok .roundMaj := rfl
theorem test_decode_round_par2 : decode (.cw 0b011011) = .ok .roundPar2 := rfl
theorem test_decode_accum : decode (.cw 0b011101) = .ok .accum := rfl
theorem test_decode_fmt : decode (.cw 0b100000) = .ok .fmt := rfl
theorem test_decode_hold_done : decode (.cw 0b100100) = .ok .holdDone := rfl
theorem test_decode_hold_error : decode (.cw 0b101010) = .ok .holdError := rfl
theorem test_decode_reserved : decode (.cw 0b111100) = .error (.reservedPhase 15) := rfl

/-- The control words of the rows, read as the table numbers them. -/
theorem test_table_words :
    ([0x00, 0x04, 0x08, 0x09, 0x0A, 0x0B, 0x0C, 0x10, 0x14, 0x18, 0x19, 0x1A, 0x1B, 0x1C, 0x20, 0x24, 0x28].map
      (decodeTableWord 8)) =
    [some .holdIdle, some .chk, some .frameFull, some .frameFinal, some .frameFill, some .frameLen, some .unpack,
      some .expand, some .load, some .roundCh, some .roundPar1, some .roundMaj, some .roundPar2, some .accum, some .fmt,
      some .holdDone, some .holdError] := by decide
/-- A raised one-bit port (log entry 11), and the 65-bit command word with `len = 3`. -/
theorem test_table_ports : (decodeTableWord 8 1, decodeTableWord 72 1, decodeTableWord 72 7)
    = (some .reset, some (.start 0), some (.start 3)) := by decide
/-- A reserved phase code is no row. -/
theorem test_table_reserved : decodeTableWord 8 0x2C = none := by decide

/-- Every control word of the table is the first operation after reset when placed there: the phase it leaves is the
sequencer's (45_transaction.md R176). -/
theorem test_step_runs_placed_words :
    ([0x00, 0x04, 0x08, 0x09, 0x0A, 0x0B, 0x0C, 0x10, 0x14, 0x18, 0x19, 0x1A, 0x1B, 0x1C, 0x20, 0x24, 0x28].map
      fun w => (next? (step (State.reset.withFetchWord 8 w))).map (·.ph)) =
    [some .idle, some .frame, some .unpack, some .unpack, some .unpack, some .unpack, some .expand, some .expand,
      some .round, some .round, some .round, some .round, some .round, some .fmt, some .done, some .done,
      some .error] := by decide

/-! ## Primitives (95_test_vectors.md section 3.1) -/

theorem test_add32_wraps : add32 [0xFFFFFFFF, 0xFFFFFFFF] = 0xFFFFFFFE := by decide
theorem test_add32_five : add32 [0xE8A4602C, 0x98BADCFE, 0xC3D2E1F0, 0x61626380, 0x5A827999] = 0x0116FC33 := by decide
theorem test_rotl_amounts : (rotl 0x12345678 1, rotl 0x12345678 5, rotl 0x12345678 30)
    = (0x2468ACF0, 0x468ACF02, 0x048D159E) := by decide
theorem test_logical_functions :
    (fCh 0x67452301 0x7BF36AE2 0x98BADCFE, fPar 0x67452301 0x7BF36AE2 0x98BADCFE, fMaj 0x67452301 0x7BF36AE2 0x98BADCFE)
    = (0xFBFBFEFE, 0x840C951D, 0x7BF36AE2) := by decide
theorem test_be32 : be32 0xFF 0x00 0x00 0x01 = 0xFF000001 := by decide
theorem test_be64 : (List.range 8).map (be64byte (8 * (2 ^ 61 - 1))) = [0xFF, 0xFF, 0xFF, 0xFF, 0xFF, 0xFF, 0xFF, 0xF8] := by decide
theorem test_hexcode : [0, 9, 10, 15].map hexcode = [0x30, 0x39, 0x41, 0x46] := by decide
theorem test_block_counts : [0, 55, 56, 63, 64, 119, 120, 2 ^ 61 - 1].map blockCount
    = [1, 1, 2, 2, 2, 2, 3, 2 ^ 55 + 1] := by decide

/-! ## One step of each operation -/

/-- RESET in `ROUND` (70_reset_and_hazards.md R230 example). -/
theorem test_reset_in_round :
    (next? (exec .reset (inPhase .round 3 1 0 37))).map (fun t => (t.ph, t.err, t.statusPort)) = some (.idle, false, 0) := by
  decide
/-- RESET and START together: the START is lost (95 section 3.6). -/
theorem test_reset_beats_start :
    (next? (step { State.reset with ports := ⟨true, true, 3, []⟩ })).map (fun t => (t.ph, t.err)) = some (.idle, false) := by
  decide
/-- START from `ERROR` (95 section 3.6): `LEN = 3`, `ERR = 0`, `PH = CHK`. -/
theorem test_start_from_error :
    (next? (step { State.reset with ph := .error, err := true, ports := ⟨false, true, 3, [(0, 0x61)]⟩ })).map
      (fun t => (t.len, t.err, t.ph, Memory.read t.msg 0, t.ports.start)) = some (3, false, .chk, 0x61, false) := by decide
/-- START in `EXPAND` (95 section 3.6): ignored, the EXPAND step is performed. -/
theorem test_start_while_busy :
    (next? (step { inPhase .expand 3 1 0 40 with ports := ⟨false, true, 100, []⟩ })).map (fun t => (t.len, t.ph, t.t))
      = some (3, .expand, 41) := by decide
/-- HOLD in `ERROR` (95 section 3.6). -/
theorem test_hold_error :
    (next? (step { State.reset with ph := .error, err := true })).map (fun t => (t.ph, t.err, t.statusPort))
      = some (.error, true, 3) := by decide
/-- CHK at the largest accepted length (40_padder.md R103 table). -/
theorem test_chk_accepts_limit :
    (next? (exec .chk (inPhase .chk 0x1FFFFFFFFFFFFFFF 0 5 0))).map (fun t => (t.nb, t.bi, t.ph, t.h.a))
      = some (36028797018963969, 0, .frame, 0x67452301) := by decide
/-- CHK at `2^61 + 3`, whose wrapped bit length would be 24 (95 section 3.2). -/
theorem test_chk_refuses_wrap :
    (next? (exec .chk (inPhase .chk 0x2000000000000003 7 5 0))).map (fun t => (t.nb, t.bi, t.ph, t.err, t.h.a))
      = some (7, 5, .error, true, 0) := by decide
/-- FRAME.FULL of 64 bytes, the first `01` and the last `40` (95 section 3.2, `L = 64`). -/
theorem test_frame_full :
    (next? (exec .frameFull { inPhase .frame 64 2 0 0 with msg := [(0, 0x01), (63, 0x40)] })).map
      (fun t => (t.blk[0], t.blk[1], t.blk[63], t.ph)) = some (0x01, 0x00, 0x40, .unpack) := by decide
/-- FRAME.FULL past the message: no such index (20_memory.md R51). -/
theorem test_frame_full_outside : next? (exec .frameFull (inPhase .frame 64 2 1 0)) = none := by decide
/-- FRAME.FINAL of "abc" (40_padder.md R105 example). -/
theorem test_frame_final_abc :
    (next? (exec .frameFinal { inPhase .frame 3 1 0 0 with msg := Memory.ofBytes [0x61, 0x62, 0x63] })).map
      (fun t => (t.blk.toList.take 5, t.blk.toList.drop 55))
      = some ([0x61, 0x62, 0x63, 0x80, 0x00], [0, 0, 0, 0, 0, 0, 0, 0, 0x18]) := by decide
/-- FRAME.FINAL with `r = 55` (95 section 3.2): the `80` byte touches the length field. -/
theorem test_frame_final_55 :
    (next? (exec .frameFinal { inPhase .frame 55 1 0 0 with msg := [(54, 0x37)] })).map (fun t => t.blk.toList.drop 54)
      = some [0x37, 0x80, 0, 0, 0, 0, 0, 0, 0x01, 0xB8] := by decide
/-- FRAME.FILL with `r = 63` (95 section 3.2): the `80` byte is the last. -/
theorem test_frame_fill_63 :
    (next? (exec .frameFill { inPhase .frame 63 2 0 0 with msg := [(62, 0x3F)] })).map (fun t => t.blk.toList.drop 61)
      = some [0x00, 0x3F, 0x80] := by decide
/-- FRAME.FILL with `r = 56` (40_padder.md R106 example). -/
theorem test_frame_fill_56 :
    (next? (exec .frameFill { inPhase .frame 56 2 0 0 with msg := [(55, 0x41)] })).map (fun t => t.blk.toList.drop 55)
      = some [0x41, 0x80, 0, 0, 0, 0, 0, 0, 0] := by decide
/-- FRAME.LEN for `L = 56` (40_padder.md R107 example). -/
theorem test_frame_len_56 :
    (next? (exec .frameLen (inPhase .frame 56 2 1 0))).map (fun t => (t.blk[0], t.blk.toList.drop 56))
      = some (0x00, [0, 0, 0, 0, 0, 0, 0x01, 0xC0]) := by decide
/-- UNPACK (41_unpack.md R121 example), big-endian; `W[16]` is left. -/
theorem test_unpack_abc :
    (next? (exec .unpack { State.reset with
      blk := Vector.ofFn fun k => ([0x61, 0x62, 0x63, 0x80] ++ List.replicate 59 0 ++ [0x18]).getD k.val 0,
      w := Vector.replicate 80 7 })).map
      (fun t => (t.w[0], t.w[1], t.w[15], t.w[16], t.t, t.ph))
      = some (0x61626380, 0, 0x18, 7, 16, .expand) := by decide
/-- EXPAND at 16 of "abc" (42_schedule.md R126 example). -/
theorem test_expand_abc :
    (next? (exec .expand { inPhase .expand 3 1 0 16 with w := (Vector.replicate 80 0).set 0 0x61626380 })).map
      (fun t => (t.w[16], t.t, t.ph)) = some (0xC2C4C700, 17, .expand) := by decide
/-- EXPAND at 79: bit 31 comes round, the last word is written and `LOAD` follows (R126). -/
theorem test_expand_last :
    (next? (exec .expand { inPhase .expand 3 1 0 79 with w := (Vector.replicate 80 0).set 63 0x80000000 })).map
      (fun t => (t.w[79], t.t, t.ph)) = some (1, 80, .load) := by decide
/-- LOAD of `IV` (43_compress.md R139 example). -/
theorem test_load_iv :
    (next? (exec .load { inPhase .load 3 1 0 80 with h := iv })).map (fun t => (t.s, t.t, t.ph))
      = some (ivWorking, 0, .round) := by decide
/-- ROUND.CH at 0 of "abc" (43_compress.md R141 example). -/
theorem test_round_ch_first :
    (next? (exec .roundCh { inPhase .round 3 1 0 0 with s := ivWorking, w := (Vector.replicate 80 0).set 0 0x61626380 })).map
      (fun t => (t.s, t.t)) = some (⟨0x0116FC33, 0x67452301, 0x7BF36AE2, 0x98BADCFE, 0x10325476⟩, 1) := by decide
/-- ROUND.CH at 19 of "abc" (96_traces.md section 2.2). -/
theorem test_round_ch_last :
    (next? (exec .roundCh { inPhase .round 3 1 0 19 with
      s := ⟨0xDC64901D, 0x82AA6728, 0xD3A49608, 0xC82F758B, 0xC65AFB9D⟩,
      w := (Vector.replicate 80 0).set 19 0x85898E01 })).map (fun t => (t.s, t.t, t.ph))
      = some (⟨0xFD9E1D7D, 0xDC64901D, 0x20AA99CA, 0xD3A49608, 0xC82F758B⟩, 20, .round) := by decide
/-- ROUND.PAR1 at 20 of "abc" (R142 example). -/
theorem test_round_par1_first :
    (next? (exec .roundPar1 { inPhase .round 3 1 0 20 with
      s := ⟨0xFD9E1D7D, 0xDC64901D, 0x20AA99CA, 0xD3A49608, 0xC82F758B⟩ })).map (·.s)
      = some ⟨0x1A37B0CA, 0xFD9E1D7D, 0x77192407, 0x20AA99CA, 0xD3A49608⟩ := by decide
/-- ROUND.PAR1 at 39 of "abc" (R142 example, 96_traces.md section 2.2). -/
theorem test_round_par1_last :
    (next? (exec .roundPar1 { inPhase .round 3 1 0 39 with
      s := ⟨0x4C986405, 0xDC63973F, 0x03D447F6, 0xF72EEC32, 0x085E5AB5⟩,
      w := (Vector.replicate 80 0).set 39 0x000018C0 })).map (·.s)
      = some ⟨0x32DE1CBA, 0x4C986405, 0xF718E5CF, 0x03D447F6, 0xF72EEC32⟩ := by decide
/-- ROUND.MAJ at 40 of "abc" (R143 example). -/
theorem test_round_maj_first :
    (next? (exec .roundMaj { inPhase .round 3 1 0 40 with
      s := ⟨0x32DE1CBA, 0x4C986405, 0xF718E5CF, 0x03D447F6, 0xF72EEC32⟩,
      w := (Vector.replicate 80 0).set 40 0xD2E138C4 })).map (·.s)
      = some ⟨0xFC87DEDF, 0x32DE1CBA, 0x53261901, 0xF718E5CF, 0x03D447F6⟩ := by decide
/-- ROUND.MAJ at 59, all ones (95 section 3.4, row `w = 12345678`). -/
theorem test_round_maj_last :
    (next? (exec .roundMaj { inPhase .round 3 1 0 59 with
      s := ⟨0x80000000, 0x00000003, 0xF0F0F0F0, 0x0F0F0F0F, 0xFFFFFFFF⟩,
      w := (Vector.replicate 80 0).set 59 0x12345678 })).map (·.s)
      = some ⟨0xA1501366, 0x80000000, 0xC0000000, 0xF0F0F0F0, 0x0F0F0F0F⟩ := by decide
/-- ROUND.PAR2 at 60 of "abc" (R144 example). -/
theorem test_round_par2_first :
    (next? (exec .roundPar2 { inPhase .round 3 1 0 60 with
      s := ⟨0x3F52DE5A, 0x09D785FD, 0x3498BFD4, 0xF211824F, 0xD79915AB⟩,
      w := (Vector.replicate 80 0).set 60 0x7BA06619 })).map (·.s)
      = some ⟨0xD756C147, 0x3F52DE5A, 0x4275E17F, 0x3498BFD4, 0xF211824F⟩ := by decide
/-- ROUND.PAR2 at 79 of "abc" (R144 example): `ACCUM` follows. -/
theorem test_round_par2_last :
    (next? (exec .roundPar2 { inPhase .round 3 1 0 79 with
      s := ⟨0x5738D5E1, 0x860D21CC, 0x681E6DF6, 0xD8FDF6AD, 0xD7B9DA25⟩,
      w := (Vector.replicate 80 0).set 79 0x822E0879 })).map (fun t => (t.s, t.t, t.ph))
      = some (⟨0x42541B35, 0x5738D5E1, 0x21834873, 0x681E6DF6, 0xD8FDF6AD⟩, 80, .accum) := by decide
/-- ACCUM of "abc" (43_compress.md R146 example). -/
theorem test_accum_abc :
    (next? (exec .accum { inPhase .accum 3 1 0 80 with
      h := iv, s := ⟨0x42541B35, 0x5738D5E1, 0x21834873, 0x681E6DF6, 0xD8FDF6AD⟩ })).map (fun t => (t.h, t.bi, t.ph))
      = some (⟨0xA9993E36, 0x4706816A, 0xBA3E2571, 0x7850C26C, 0x9CD0D89D⟩, 1, .fmt) := by decide
/-- ACCUM: the carry out of `H[4]` does not reach `H[3]`, and a further block follows (95 section 3.4). -/
theorem test_accum_no_carry :
    (next? (exec .accum { inPhase .accum 56 2 0 80 with h := ⟨0, 0, 0, 0, 0xFFFFFFFF⟩, s := ⟨0, 0, 0, 0, 1⟩ })).map
      (fun t => (t.h, t.bi, t.ph)) = some (⟨0, 0, 0, 0, 0⟩, 1, .frame) := by decide
/-- FMT of "abc" (44_format.md R162 example): the first bytes and the last. -/
theorem test_fmt_abc :
    (next? (exec .fmt { inPhase .fmt 3 1 1 80 with h := ⟨0xA9993E36, 0x4706816A, 0xBA3E2571, 0x7850C26C, 0x9CD0D89D⟩ })).map
      (fun t => (t.digest.toList.take 8, t.digest.toList.drop 36, t.ph))
      = some ([0x41, 0x39, 0x39, 0x39, 0x33, 0x45, 0x33, 0x36], [0x44, 0x38, 0x39, 0x44], .done) := by decide
/-- FMT keeps leading zeros (95 section 3.5): `0000000A` is eight characters. -/
theorem test_fmt_leading_zeros :
    (next? (exec .fmt { inPhase .fmt 3 1 1 80 with h := ⟨0x0000000A, 0x000000B0, 0, 0, 0⟩ })).map
      (fun t => t.digest.toList.take 16)
      = some [0x30, 0x30, 0x30, 0x30, 0x30, 0x30, 0x30, 0x41, 0x30, 0x30, 0x30, 0x30, 0x30, 0x30, 0x42, 0x30] := by decide

/-! ## Witnesses: the hypotheses of each statement can be met together, at the boundaries -/

theorem witness_RotlIsCircularLeftRotation : (1 ≤ 1 ∧ 1 ≤ 31) ∧ (1 ≤ 31 ∧ 31 ≤ 31) := by decide
theorem witness_AddIsSumModuloWord : [1#32, 2#32].Perm [2#32, 1#32] := List.Perm.swap _ _ _
theorem witness_accepted_lengths : (0 < 2 ^ 61) ∧ (2 ^ 61 - 1 < 2 ^ 61) ∧ (2 ^ 61 ≤ 2 ^ 61) := by decide
theorem witness_BlocksArePaddedMessage : 0 < blockCount 0 ∧ blockCount 0 ≤ 1 ∧ 1 < blockCount 56 := by decide
theorem witness_ExpandIsTheRecurrence : (16 ≤ 16 ∧ 16 < 80) ∧ (16 ≤ 79 ∧ 79 < 80) := by decide
theorem witness_HashUsesOnlyTheDeclaredBytes :
    ∀ p : Nat, p < 1 → Memory.read [(0, 0x61)] p = Memory.read [(0, 0x61), (1, 0x62)] p := by decide
theorem witness_DecodeAgreesWithEncode :
    Instr.wellFormed (.start 3) = true ∧ RawWord.canonical (.cw 0x0B) = true ∧ decode (.cw 0x0B) = .ok .frameLen :=
  ⟨rfl, rfl, rfl⟩
theorem witness_ReservedWordsAreRejected : 11 ≤ (11#4).toNat ∧ 11 ≤ (15#4).toNat := by decide
theorem witness_StartBeginsTransaction :
    (State.reset.ph = .idle) ∧ ((inPhase .done 3 1 1 80).ph = .done) ∧ ((inPhase .error 3 1 1 80).ph = .error) := by decide
theorem witness_StartWhileBusyChangesNothing :
    let s := inPhase .expand 3 1 0 40
    s.ph ≠ .idle ∧ s.ph ≠ .done ∧ s.ph ≠ .error := by decide
theorem witness_ChkGuardsAndInitialises :
    2 ^ 61 ≤ (inPhase .chk 0x2000000000000000 0 0 0).len.toNat ∧ (inPhase .chk 0x1FFFFFFFFFFFFFFF 0 0 0).len.toNat < 2 ^ 61 := by
  decide
theorem witness_FrameFullCopiesMessage :
    let s := inPhase .frame 64 2 0 0
    s.len.toNat < 2 ^ 61 ∧ s.bi.toNat < s.len.toNat / 64 := by decide
theorem witness_FrameFinalPadsLastBlock :
    let s := inPhase .frame 3 1 0 0
    s.len.toNat < 2 ^ 61 ∧ s.bi.toNat = s.len.toNat / 64 ∧ 3 = s.len.toNat % 64 ∧ 3 ≤ 55 ∧ 2 < 3 ∧ 3 < 4 ∧ 4 < 56 := by decide
/-- `r = 0` and `r = 55`. -/
theorem witness_FrameFinal_boundaries :
    let s := inPhase .frame 64 2 1 0
    let s' := inPhase .frame 0x1FFFFFFFFFFFFFF7 0 0x7FFFFFFFFFFFFF 0
    (s.bi.toNat = s.len.toNat / 64 ∧ 0 = s.len.toNat % 64) ∧
    (s'.len.toNat < 2 ^ 61 ∧ s'.bi.toNat = s'.len.toNat / 64 ∧ 55 = s'.len.toNat % 64) := by decide
theorem witness_FrameFillPadsTail :
    let s := inPhase .frame 56 2 0 0
    let s' := inPhase .frame 63 2 0 0
    (s.len.toNat < 2 ^ 61 ∧ s.bi.toNat = s.len.toNat / 64 ∧ 56 = s.len.toNat % 64) ∧
    (s'.len.toNat < 2 ^ 61 ∧ s'.bi.toNat = s'.len.toNat / 64 ∧ 63 = s'.len.toNat % 64) := by decide
theorem witness_FrameLenHoldsOnlyLength :
    let s := inPhase .frame 56 2 1 0
    s.len.toNat < 2 ^ 61 ∧ s.bi.toNat = s.len.toNat / 64 + 1 ∧ 56 ≤ s.len.toNat % 64 := by decide
theorem witness_ExpandComputesOneWord :
    (inPhase .expand 3 1 0 16).t.toNat = 16 ∧ (inPhase .expand 3 1 0 79).t.toNat = 79 := by decide
theorem witness_RoundChPerformsRound :
    (inPhase .round 3 1 0 0).t.toNat = 0 ∧ (inPhase .round 3 1 0 19).t.toNat = 19 := by decide
theorem witness_RoundPar1PerformsRound :
    (inPhase .round 3 1 0 20).t.toNat = 20 ∧ (inPhase .round 3 1 0 39).t.toNat = 39 := by decide
theorem witness_RoundMajPerformsRound :
    (inPhase .round 3 1 0 40).t.toNat = 40 ∧ (inPhase .round 3 1 0 59).t.toNat = 59 := by decide
theorem witness_RoundPar2PerformsRound :
    (inPhase .round 3 1 0 60).t.toNat = 60 ∧ (inPhase .round 3 1 0 79).t.toNat = 79 := by decide
theorem witness_AccumFoldsRoundOutput :
    (inPhase .accum 3 1 0 80).bi.toNat < (inPhase .accum 3 1 0 80).nb.toNat ∧
    (inPhase .accum 56 2 0 80).bi.toNat + 1 ≠ (inPhase .accum 56 2 0 80).nb.toNat := by decide
theorem witness_RegistersAreWrittenOnlyByTheirWriters :
    Instr.fmt ≠ Instr.reset ∧ (next? (exec .fmt State.reset)).isSome = true ∧
    (next? (exec .fmt State.reset)).map (·.digest) ≠ some State.reset.digest := by decide
theorem witness_StepRunsDecodedOperation :
    let s := inPhase .expand 3 1 0 16
    let c := { State.reset with ports := ⟨false, true, 3, []⟩ }
    (s.operationWord = .ok (.cw 0b010000) ∧ decode (.cw 0b010000) = .ok .expand ∧ s.controlWord = .ok 0b010000) ∧
    (c.unreachable = none ∧ c.ports.start = true ∧ c.ph.resting = true ∧ c.ports.rst = false) ∧
    (s.unreachable = none ∧ s.ph.resting = false) ∧
    (inPhase .accum 3 1 1 80).operationWord = .error .blockIndex := ⟨⟨rfl, rfl, rfl⟩, ⟨rfl, rfl, rfl, rfl⟩, ⟨rfl, rfl⟩, rfl⟩
theorem witness_ResetHasPriority : { State.reset with ports := ⟨true, true, 3, []⟩ }.ports.rst = true := rfl
theorem witness_StartWhileBusyIsIgnored :
    let s := { inPhase .expand 3 1 0 40 with ports := ⟨false, true, 100, []⟩ }
    s.ports.rst = false ∧ s.ph.resting = false ∧ s.ports.start = true := by decide

/-- A state of phase `ph` over the empty message keeps the invariants when its counters do. -/
theorem inv_of_counters (ph : Phase) (bi : BitVec 56) (t : BitVec 7) (hp : ph ≠ .error)
    (hb : ph.onBlock = true → bi.toNat < 1) (ht : (inPhase ph 0 1 bi t).indexInRange)
    (hf : ph = .fmt ∨ ph = .done → bi = 1) (hl : t.toNat ≤ 80 := by decide) : (inPhase ph 0 1 bi t).Inv where
  errorFlag := by simp [inPhase, State.reset, hp]
  accepted := by
    intro _ _
    have h1 : (0#64).toNat < lengthLimit := by decide
    have h2 : (1#56).toNat = blockCount (0#64).toNat := by decide
    exact ⟨h1, h2⟩
  blockIndex := hb
  index := ht
  indexBound := fun _ => hl
  finished := hf
  message := rfl
  presented := rfl

/-- Witnesses of `Inv` and `Quiet` in every phase that a run statement starts from. -/
theorem witness_Inv_frame : (inPhase .frame 0 1 0 0).Inv ∧ (inPhase .frame 0 1 0 0).Quiet :=
  ⟨inv_of_counters .frame 0 0 (by decide) (by decide) trivial (by decide), rfl, rfl⟩
theorem witness_Inv_unpack : (inPhase .unpack 0 1 0 0).Inv ∧ (inPhase .unpack 0 1 0 0).Quiet :=
  ⟨inv_of_counters .unpack 0 0 (by decide) (by decide) trivial (by decide), rfl, rfl⟩
theorem witness_Inv_expand : (inPhase .expand 0 1 0 79).Inv :=
  inv_of_counters .expand 0 79 (by decide) (by decide) ⟨by decide, by decide⟩ (by decide)
theorem witness_Inv_load : (inPhase .load 0 1 0 80).Inv ∧ (inPhase .load 0 1 0 80).Quiet :=
  ⟨inv_of_counters .load 0 80 (by decide) (by decide) rfl (by decide), rfl, rfl⟩
theorem witness_Inv_round : (inPhase .round 0 1 0 79).Inv :=
  inv_of_counters .round 0 79 (by decide) (by decide) (Nat.le_refl 79) (by decide)
theorem witness_Inv_done : (inPhase .done 0 1 1 80).Inv :=
  inv_of_counters .done 1 80 (by decide) (by decide) trivial (by decide)
/-- The step of an invariant state goes on, so the kept-invariant statements have an instance. -/
theorem witness_Inv_step : (next? (step (inPhase .expand 0 1 0 79))).isSome = true := by decide

theorem witness_RestingStateIsStable :
    let s := { State.reset with ph := .error, err := true }
    let d := inPhase .done 3 1 1 80
    (s.Quiet ∧ s.ph.resting = true ∧ (s.err = true ↔ s.ph = .error) ∧ s.indexBounded) ∧
    (d.Quiet ∧ d.ph.resting = true ∧ (d.err = true ↔ d.ph = .error) ∧ d.indexBounded) :=
  ⟨⟨⟨rfl, rfl⟩, rfl, by decide, by decide⟩, ⟨⟨rfl, rfl⟩, rfl, by decide, by decide⟩⟩
theorem witness_OnlyChkRaisesLengthOverflow :
    let s := inPhase .chk 0x2000000000000000 0 0 0
    (next? (step s)).map (·.err) = some true ∧ s.err = false ∧ s.ports.rst = false ∧ s.ph = .chk ∧
    (next? (step (inPhase .chk 0x1FFFFFFFFFFFFFFF 0 0 0))).map (·.err) = some false := by decide
theorem witness_MessageIsImmutableDuringTransaction :
    let s := { State.reset with ports := ⟨false, true, 1, [(0, 0x61)]⟩ }
    (next? (step s)).map (·.msg) = some [(0, 0x61)] ∧ s.msg = [] ∧ (inPhase .frame 0 1 0 0).ph.resting = false := by decide
theorem witness_ControlDoesNotDependOnMessage : (next? (step (inPhase .frame 3 1 0 0))).isSome = true := by decide
/-- `T` may hold what RESET left until UNPACK of block 0 writes it (10_state.md R38, R39): no refusal there. -/
theorem test_index_free_before_unpack :
    ([inPhase .idle 0 0 0 127, inPhase .chk 0 0 0 127, inPhase .frame 0 1 0 127, inPhase .unpack 0 1 0 127].map
      fun s => (next? (step s)).map (·.t)) = [some 127, some 127, some 127, some 16] := by decide
theorem witness_UnreachableStatesAreRefused :
    refusal? (step (inPhase .expand 0 1 0 15)) = some .indexT ∧ refusal? (step (inPhase .round 0 1 0 80)) = some .indexT ∧
    refusal? (step (inPhase .load 0 1 0 81)) = some .indexT ∧ refusal? (step (inPhase .fmt 0 1 1 81)) = some .indexT ∧
    refusal? (step (inPhase .done 0 1 1 127)) = some .indexT ∧ refusal? (step (inPhase .frame 64 2 1 81)) = some .indexT ∧
    refusal? (step (inPhase .unpack 64 2 1 81)) = some .indexT ∧ refusal? (step (inPhase .accum 0 1 1 80)) = some .blockIndex ∧
    refusal? (step (inPhase .fmt 0x2000000000000000 1 1 80)) = some .lengthInBusy ∧
    refusal? (step { State.reset with err := true }) = some .errorFlag := by decide

/-- A DONE state that agrees with the functions: the digest of the empty message. -/
def doneEmpty : State :=
  { inPhase .done 0 1 1 80 with h := absorbFirst [] 0 (blockCount 0), digest := format (absorbFirst [] 0 (blockCount 0)) }

theorem witness_Correct_done : doneEmpty.Correct ∧ doneEmpty.ph = .done ∧ doneEmpty.statusPort = 2#2 := by
  refine ⟨⟨⟨?_, ?_, ?_, trivial, fun _ => Nat.le_refl 80, ?_, rfl, rfl⟩, ?_, rfl, rfl⟩, rfl, rfl⟩
  · simp [doneEmpty, inPhase, State.reset]
  · intro h
    cases h
  · intro h
    cases h
  · intro _
    rfl
  · show (0#64).toNat < lengthLimit
    decide

theorem witness_Commanded_accepted :
    let s := { State.reset with ports := ⟨false, true, 0x1FFFFFFFFFFFFFFF, []⟩ }
    s.Commanded ∧ s.ports.len.toNat < 2 ^ 61 := ⟨⟨rfl, rfl, rfl, by decide, by decide⟩, by decide⟩
theorem witness_Commanded_refused :
    let s := { State.reset with ports := ⟨false, true, 0x2000000000000000, []⟩ }
    s.Commanded ∧ 2 ^ 61 ≤ s.ports.len.toNat := ⟨⟨rfl, rfl, rfl, by decide, by decide⟩, by decide⟩
/-- Two commanded states with the same ports that differ in every earlier register that a DONE leaves. -/
theorem witness_TransactionsAreIndependent :
    let s := { State.reset with ports := ⟨false, true, 3, [(0, 0x61)]⟩ }
    let s' := { inPhase .done 64 2 2 80 with h := iv, ports := ⟨false, true, 3, [(0, 0x61)]⟩ }
    s.Commanded ∧ s'.Commanded ∧ s'.ports = s.ports ∧ s'.h ≠ s.h := by
  refine ⟨⟨rfl, rfl, rfl, ?_, ?_⟩, ⟨rfl, rfl, rfl, ?_, ?_⟩, rfl, ?_⟩ <;> decide
/-- FRAME.FINAL of one byte, and a message that differs past it. -/
theorem witness_TransactionReadsEachByteOnce :
    let s := { inPhase .frame 1 1 0 0 with msg := [(0, 0x61)] }
    Instr.frameFinal ≠ .start 1 ∧ (next? (exec .frameFinal s)).isSome = true ∧
    ∀ a : Nat, a ∈ messageReads .frameFinal s →
      a < s.len.toNat ∧ Memory.read s.msg a = Memory.read [(0, 0x61), (1, 0x62)] a := by decide
theorem witness_statusCodes :
    State.reset.statusPort = 0 ∧ (inPhase .fmt 0 1 1 80).statusPort = 1 ∧ (inPhase .done 0 1 1 80).statusPort = 2 ∧
    (inPhase .error 0 1 1 80).statusPort = 3 := by decide

end Sys2Proof.Tests
end

section
/-! PROOFS of the statements of 00_scope.md about the primitives: `add32` (rule R9), `rotl` (rule R11) and `be64bytes`
(rule R13). -/

namespace Sys2Proof.Machine

/-! ## `rotl`: the two slices and the arithmetic formula -/

/-- The model's pair of shifts is the library's rotation, on the domain of rule R11. -/
theorem rotl_eq_rotateLeft (x : Word) (n : Nat) (h : 1 ≤ n ∧ n ≤ 31) : rotl x n h = x.rotateLeft n := by
  have hn : n < 32 := by omega
  rw [BitVec.rotateLeft_def, Nat.mod_eq_of_lt hn, rotl]

/-- The low `n` bits of a rotation are the top slice of the word, the others its low slice moved up. -/
theorem rotl_getLsbD (x : Word) (n : Nat) (h : 1 ≤ n ∧ n ≤ 31) (i : Nat) (hi : i < 32) :
    (rotl x n h).getLsbD i = if i < n then x.getLsbD (32 - n + i) else x.getLsbD (i - n) := by
  have hn : n % 32 = n := Nat.mod_eq_of_lt (by omega)
  rw [rotl_eq_rotateLeft, BitVec.getLsbD_rotateLeft, hn, Bool.cond_decide, decide_eq_true hi, Bool.true_and]

/-- A left shift in `w` bits keeps the low `w - n` bits and moves them up by `n`. -/
theorem mul_two_pow_mod_two_pow (x w n : Nat) (h : n ≤ w) : x * 2 ^ n % 2 ^ w = 2 ^ n * (x % 2 ^ (w - n)) := by
  have hw : 2 ^ w = 2 ^ (w - n) * 2 ^ n := by rw [← Nat.pow_add, Nat.sub_add_cancel h]
  rw [hw, Nat.mul_mod_mul_right, Nat.mul_comm]

/-- The slice that a rotation brings to the bottom fits its `n` bits. -/
theorem word_div_lt_two_pow (x : Word) (n : Nat) (h : n ≤ 32) : x.toNat / 2 ^ (32 - n) < 2 ^ n := by
  apply Nat.div_lt_of_lt_mul
  rw [← Nat.pow_add, Nat.sub_add_cancel h]
  exact x.isLt

/-- The two shifted parts share no bit, so their disjunction is their sum. -/
theorem rotl_toNat (x : Word) (n : Nat) (h : 1 ≤ n ∧ n ≤ 31) :
    (rotl x n h).toNat = (x.toNat * 2 ^ n) % 2 ^ 32 + x.toNat / 2 ^ (32 - n) := by
  have hn : n ≤ 32 := by omega
  have hlow : x.toNat / 2 ^ (32 - n) < 2 ^ n := word_div_lt_two_pow x n hn
  calc (rotl x n h).toNat
      = (x.toNat * 2 ^ n) % 2 ^ 32 ||| x.toNat / 2 ^ (32 - n) := by
        rw [rotl, BitVec.toNat_or, BitVec.toNat_shiftLeft, BitVec.toNat_ushiftRight, Nat.shiftLeft_eq,
          Nat.shiftRight_eq_div_pow]
    _ = (x.toNat * 2 ^ n) % 2 ^ 32 + x.toNat / 2 ^ (32 - n) := by
        rw [mul_two_pow_mod_two_pow x.toNat 32 n hn, Nat.two_pow_add_eq_or_of_lt hlow]

/-- Settles O2: the bits by the library's rotation, the formula because the two shifted parts are disjoint. -/
theorem rotlIsCircularLeftRotation : Obligations.RotlIsCircularLeftRotation := fun x n h =>
  ⟨rotl_toNat x n h, rotl_getLsbD x n h⟩

/-! ## `add32`: one reduction of the exact sum -/

theorem add32_toNat (xs : List Word) : (add32 xs).toNat = (xs.map BitVec.toNat).sum % 2 ^ 32 :=
  BitVec.toNat_ofNat _ _

/-- The order of the operands does not matter: the exact sum does not depend on it. -/
theorem add32_perm {xs ys : List Word} (h : xs.Perm ys) : add32 xs = add32 ys :=
  congrArg (BitVec.ofNat 32) (h.map BitVec.toNat).sum_eq

/-- Reducing the sum of the later operands first does not change the word. -/
theorem add32_cons (x : Word) (xs : List Word) : add32 (x :: xs) = x + add32 xs := by
  rw [add32, List.map_cons, List.sum_cons, BitVec.ofNat_add, BitVec.ofNat_toNat, BitVec.setWidth_eq, add32]

/-- Settles O1, part by part. -/
theorem addIsSumModuloWord : Obligations.AddIsSumModuloWord :=
  ⟨add32_toNat, fun _ _ => add32_perm, add32_cons⟩

/-! ## `be64bytes`: the value in base 256 -/

theorem be64byte_toNat (v i : Nat) : (be64byte v i).toNat = v / 2 ^ (8 * (7 - i)) % 256 :=
  BitVec.toNat_ofNat _ _

/-- The first `k` bytes, weighted, are `v` without its last `8 - k` bytes. -/
theorem be64byte_leading_sum_add_mod (v : Nat) (hv : v < 2 ^ 64) (k : Nat) (hk : k ≤ 8) :
    ((List.range k).map fun i => (be64byte v i).toNat * 256 ^ (7 - i)).sum + v % 256 ^ (8 - k) = v := by
  induction k with
  | zero => simpa using hv
  | succ k ih =>
    have hstep : v % 256 ^ (8 - k) = v % 256 ^ (7 - k) + 256 ^ (7 - k) * (v / 256 ^ (7 - k) % 256) := by
      rw [show 8 - k = 7 - k + 1 by omega, Nat.mod_pow_succ]
    have hbyte : (be64byte v k).toNat = v / 256 ^ (7 - k) % 256 := by
      rw [be64byte_toNat, Nat.pow_mul]
    have hleading := ih (by omega)
    rw [hstep, ← hbyte, Nat.mul_comm (256 ^ (7 - k))] at hleading
    rw [List.range_succ, List.map_append, List.sum_append, List.map_singleton, List.sum_singleton,
      show 8 - (k + 1) = 7 - k by omega]
    omega

/-- All eight bytes, weighted, are `v`. -/
theorem be64byte_weighted_sum (v : Nat) (hv : v < 2 ^ 64) :
    ((List.range 8).map fun i => (be64byte v i).toNat * 256 ^ (7 - i)).sum = v := by
  simpa [Nat.mod_one] using be64byte_leading_sum_add_mod v hv 8 le_rfl

/-- 30_encoding.md rule R72: the bit length of an accepted message fits 64 bits. -/
theorem bitLength_lt (L : Nat) (h : L < 2 ^ 61) : bitLength L < 2 ^ 64 := by
  unfold bitLength
  omega

/-- Settles O5: the bytes by induction on how many of them are summed, and no bit length wraps. -/
theorem lengthFieldIsBigEndianBitLength : Obligations.LengthFieldIsBigEndianBitLength :=
  ⟨fun v hv => ⟨be64byte_weighted_sum v hv, fun i _ => be64byte_toNat v i⟩, fun L h => ⟨rfl, bitLength_lt L h⟩⟩

end Sys2Proof.Machine
end

section
/-! PROOFS of the statements of 10_state.md: which operation writes which register (rule R20), and the invariants with the
agreement of the registers (rule R40), at reset and over every step. -/

namespace Sys2Proof

/-- The phase that performs an operation (30_encoding.md rule R83); RESET and START belong to the host. -/
def Instr.ownPhase : Instr → Option Machine.Phase
  | .reset | .start _ => none
  | .holdIdle => some .idle
  | .chk => some .chk
  | .frameFull | .frameFinal | .frameFill | .frameLen => some .frame
  | .unpack => some .unpack
  | .expand => some .expand
  | .load => some .load
  | .roundCh | .roundPar1 | .roundMaj | .roundPar2 => some .round
  | .accum => some .accum
  | .fmt => some .fmt
  | .holdDone => some .done
  | .holdError => some .error

end Sys2Proof

namespace Sys2Proof.Machine

/-! ## Which operation a step performs -/

/-- The operation map, read backwards: eleven phases with four values of `SUB` each (30_encoding.md rule R83). -/
theorem ownPhase_of_decodeControl (p : Phase) (sub : BitVec 2) (i : Instr) (h : decodeControl p.code sub = .ok i) :
    i.ownPhase = some p := by
  have hsub : ∀ x : BitVec 2, x = 0#2 ∨ x = 1#2 ∨ x = 2#2 ∨ x = 3#2 := by decide
  cases p <;> rcases hsub sub with rfl | rfl | rfl | rfl <;> cases h <;> rfl

theorem controlWord_eq_code_append (s : State) (w : BitVec 6) (h : s.controlWord = .ok w) :
    ∃ sub : BitVec 2, w = s.ph.code ++ sub := by
  unfold State.controlWord at h
  split at h
  case h_1 => split at h <;> cases h; exact ⟨_, rfl⟩
  case h_2 => split at h <;> cases h; exact ⟨_, rfl⟩
  all_goals cases h; exact ⟨_, rfl⟩

/-- The three places an operation word can come from (30_encoding.md rule R83). -/
theorem operationWord_cases (s : State) (w : RawWord) (h : s.operationWord = .ok w) :
    w = .rst 1#1 ∨ w = .cmd s.ports.command ∨ ∃ sub : BitVec 2, w = .cw (s.ph.code ++ sub) := by
  unfold State.operationWord at h
  split at h
  · cases h; exact .inl rfl
  · split at h
    · cases h
    · split at h
      · cases h; exact .inr (.inl rfl)
      · split at h
        · next c hc =>
          obtain ⟨sub, rfl⟩ := controlWord_eq_code_append s c hc
          cases h; exact .inr (.inr ⟨sub, rfl⟩)
        · cases h

theorem fetch_eq_ok (s : State) (i : Instr) (h : s.fetch = .ok i) :
    ∃ w, s.operationWord = .ok w ∧ decode w = .ok i := by
  unfold State.fetch at h
  split at h
  · cases h
  · next w hw =>
    split at h
    · next hd => cases h; exact ⟨w, hw, hd⟩
    · cases h

/-- A step performs an operation of the core only in that operation's own phase. -/
theorem ph_of_fetch (s : State) (i : Instr) (p : Phase) (h : s.fetch = .ok i) (hp : i.ownPhase = some p) :
    s.ph = p := by
  obtain ⟨w, hw, hd⟩ := fetch_eq_ok s i h
  rcases operationWord_cases s w hw with rfl | rfl | ⟨sub, rfl⟩
  · cases hd; cases hp
  · simp only [decode] at hd
    split at hd <;> cases hd
    cases hp
  · rw [decode_controlWord] at hd
    simpa [ownPhase_of_decodeControl _ _ _ hd] using hp

/-! ## The functions of the stages, one index at a time -/

theorem block_of_full (m : Memory) (L j : Nat) (hL : L < lengthLimit) (hj : j < fullBlocks L) :
    block m L j = some (fullBlock m j) := by
  simp [block, Nat.not_le.2 hL, hj]

theorem block_of_final (m : Memory) (L j : Nat) (hL : L < lengthLimit) (hj : j = fullBlocks L ∧ tailLength L ≤ 55) :
    block m L j = some (finalBlock m L) := by
  simp [block, Nat.not_le.2 hL, hj]

theorem block_of_fill (m : Memory) (L j : Nat) (hL : L < lengthLimit) (hj : j = fullBlocks L ∧ 56 ≤ tailLength L) :
    block m L j = some (fillBlock m L) := by
  have hr : ¬ tailLength L ≤ 55 := by omega
  simp [block, Nat.not_le.2 hL, hj, hr]

theorem block_of_length (m : Memory) (L j : Nat) (hL : L < lengthLimit)
    (hj : j = fullBlocks L + 1 ∧ 56 ≤ tailLength L) : block m L j = some (lengthBlock L) := by
  simp [block, Nat.not_le.2 hL, hj]

theorem absorbFirst_succ (m : Memory) (L n : Nat) (b : Block) (h : block m L n = some b) :
    absorbFirst m L (n + 1) = absorb (absorbFirst m L n) b := by
  simp [absorbFirst, h]

theorem roundsFirst_succ (s : SRegs) (y : Schedule) (n : Nat) (h : n < 80) :
    roundsFirst s y (n + 1) = round (roundsFirst s y n) n y[n] := by
  simp [roundsFirst, h]

/-- The recurrence at `t` sees only words below `t`. -/
theorem scheduleWord_congr (w w' : Schedule) (t : Nat) (ht : 16 ≤ t ∧ t < 80)
    (h : ∀ (i : Nat) (hi : i < 80), i < t → w[i] = w'[i]) : scheduleWord w t ht = scheduleWord w' t ht := by
  unfold scheduleWord
  rw [h (t - 3) (by omega) (by omega), h (t - 8) (by omega) (by omega), h (t - 14) (by omega) (by omega),
    h (t - 16) (by omega) (by omega)]

theorem expandFirst_succ (w : Schedule) (n : Nat) (h : n < 64) :
    expandFirst w (n + 1) =
      (expandFirst w n).set (16 + n) (scheduleWord (expandFirst w n) (16 + n) (by omega)) := by
  simp [expandFirst, h]

/-- A word once computed is not written again. -/
theorem expandFirst_getElem_stable (w : Schedule) (n m i : Nat) (hi : i < 80) (hn : i < 16 + n) (hm : n ≤ m)
    (hm' : m ≤ 64) : (expandFirst w m)[i] = (expandFirst w n)[i] := by
  induction m, hm using Nat.le_induction with
  | base => rfl
  | succ m hnm ih =>
    rw [expandFirst_succ w m (by omega), Vector.getElem_set_ne _ _ (by omega), ih (by omega)]

theorem withWordBlock_getElem_of_lt (w : Schedule) (x : Vector Word 16) (i : Nat) (h : i < 16) :
    (withWordBlock w x)[i] = x[i] := by
  simp [withWordBlock, h]

/-- The first sixteen words of the schedule are the Word block (42_schedule.md rule R125). -/
theorem expand_getElem_of_lt (x : Vector Word 16) (i : Nat) (h : i < 16) : (expand x)[i] = x[i] := by
  unfold expand
  rw [expandFirst_getElem_stable _ 0 64 i (by omega) (by omega) (by omega) (by omega)]
  exact withWordBlock_getElem_of_lt _ x i h

/-- The other words obey the recurrence over the finished schedule (42_schedule.md rule R125). -/
theorem expand_getElem_eq_scheduleWord (x : Vector Word 16) (t : Nat) (ht : 16 ≤ t ∧ t < 80) :
    (expand x)[t] = scheduleWord (expand x) t ht := by
  obtain ⟨k, rfl⟩ : ∃ k, t = 16 + k := ⟨t - 16, by omega⟩
  let w := withWordBlock (Vector.replicate 80 0) x
  calc (expand x)[16 + k]
      = (expandFirst w (k + 1))[16 + k] :=
        expandFirst_getElem_stable w (k + 1) 64 _ ht.2 (by omega) (by omega) le_rfl
    _ = scheduleWord (expandFirst w k) (16 + k) ht := by
        simp [expandFirst_succ w k (by omega)]
    _ = scheduleWord (expand x) (16 + k) ht :=
        scheduleWord_congr _ _ _ ht fun i hi hik =>
          (expandFirst_getElem_stable w k 64 i hi hik (by omega) le_rfl).symm

/-- One more word of a schedule that agrees with `expand` below `t`. -/
theorem set_scheduleWord_getElem (w : Schedule) (x : Vector Word 16) (t : Nat) (ht : 16 ≤ t ∧ t < 80)
    (h : ∀ (i : Nat) (hi : i < 80), i < t → w[i] = (expand x)[i]) (i : Nat) (hi : i < 80) (hit : i < t + 1) :
    (w.set t (scheduleWord w t ht) ht.2)[i] = (expand x)[i] := by
  rcases Nat.lt_succ_iff_lt_or_eq.1 hit with hlt | rfl
  · rw [Vector.getElem_set_ne _ _ (by omega)]
    exact h i hi hlt
  · rw [Vector.getElem_set_self, expand_getElem_eq_scheduleWord x i ht]
    exact scheduleWord_congr w (expand x) i ht h

/-! ## What an operation does, in the terms of the stages' functions -/

/-- What an operation that goes on makes of a state: its guard and its result, one case for each shape of operation. -/
inductive Effect (s : State) : Instr → State → Prop
  | reset : Effect s .reset s.toReset
  | start (len : BitVec 64) : s.ph.resting = true → Effect s (.start len) (s.beginTransaction len)
  | startIgnored (len : BitVec 64) : s.ph.resting = false → Effect s (.start len) s
  | hold (i : Instr) (p : Phase) : i.ownPhase = some p → p.resting = true → Effect s i s
  | overflow : lengthLimit ≤ s.len.toNat → Effect s .chk s.raiseLengthOverflow
  | accept : s.len.toNat < lengthLimit →
      Effect s .chk { s with h := iv, nb := BitVec.ofNat 56 (blockCount s.len.toNat), bi := 0, ph := .frame }
  | frame (i : Instr) (b : Block) : i.ownPhase = some .frame → block s.msg s.len.toNat s.bi.toNat = some b →
      Effect s i (s.leaveFrame b)
  | unpack : Effect s .unpack { s with w := withWordBlock s.w (unpack s.blk), t := 16, ph := .expand }
  | expand (ht : 16 ≤ s.t.toNat ∧ s.t.toNat < 80) :
      Effect s .expand { s with
        w := s.w.set s.t.toNat (scheduleWord s.w s.t.toNat ht) ht.2
        t := s.t + 1
        ph := if s.t.toNat + 1 = 80 then .load else .expand }
  | load : Effect s .load { s with s := s.h.toWorking, t := 0, ph := .round }
  | round (i : Instr) (ht : s.t.toNat < 80) : i.ownPhase = some .round →
      Effect s i { s with
        s := round s.s s.t.toNat s.w[s.t.toNat]
        t := s.t + 1
        ph := if s.t.toNat + 1 = 80 then .accum else .round }
  | accum : s.bi.toNat < s.nb.toNat →
      Effect s .accum { s with
        h := s.h.accumulate s.s
        bi := s.bi + 1
        ph := if s.bi.toNat + 1 = s.nb.toNat then .fmt else .frame }
  | fmt : Effect s .fmt { s with digest := format s.h, ph := .done }

/-- A FRAME.* operation that goes on leaves its block, and the length is an accepted one. -/
theorem frameReading_eq_next (base n : Nat) (b : Block) (s t : State) (h : frameReading base n b s = .next t) :
    s.len.toNat < lengthLimit ∧ (n = 0 ∨ base + n ≤ s.len.toNat) ∧ t = s.leaveFrame b := by
  rcases frameReading_cases base n b s with ⟨-, he⟩ | ⟨hl, hi, he⟩ | ⟨-, -, -, he⟩
  · cases he.symm.trans h
  · cases he.symm.trans h; exact ⟨hl, hi, rfl⟩
  · cases he.symm.trans h

/-- A ROUND.* operation that goes on performs the round of rule R140, when its function and constant are those of its
quarter. -/
theorem roundStep_effect (lo : Nat) (f : Word → Word → Word → Word) (k : Word) (i : Instr) (s t : State)
    (hi : i.ownPhase = some .round)
    (hf : ∀ n, lo ≤ n → n < lo + 20 → n < 80 → ∀ (r : SRegs) (w : Word), round r n w = roundWith f k r w)
    (h : roundStep lo f k s = .next t) : Effect s i t := by
  by_cases hg : lo ≤ s.t.toNat ∧ s.t.toNat < lo + 20 ∧ s.t.toNat < 80
  · rw [roundStep_next lo f k s hg, ← hf _ hg.1 hg.2.1 hg.2.2] at h
    cases h
    exact .round i hg.2.2 hi
  · cases (roundStep_refused lo f k s hg).symm.trans h

theorem execChk_effect (s t : State) (h : execChk s = .next t) : Effect s .chk t := by
  unfold execChk at h
  split at h
  · next hl => cases h; exact .overflow ((State.lengthOverflows_iff s).1 hl)
  · next hl =>
    rw [State.lengthOverflows_iff] at hl
    cases h; exact .accept (by omega)

theorem execFrameFull_effect (s t : State) (h : execFrameFull s = .next t) : Effect s .frameFull t := by
  obtain ⟨hl, hi, rfl⟩ := frameReading_eq_next _ _ _ s t h
  refine .frame _ _ rfl (block_of_full _ _ _ hl ?_)
  unfold fullBlocks
  omega

theorem execFrameFinal_effect (s t : State) (h : execFrameFinal s = .next t) : Effect s .frameFinal t := by
  unfold execFrameFinal at h
  split at h
  · next hc =>
    obtain ⟨hl, -, rfl⟩ := frameReading_eq_next _ _ _ s t h
    exact .frame _ _ rfl (block_of_final _ _ _ hl hc)
  · cases h

theorem execFrameFill_effect (s t : State) (h : execFrameFill s = .next t) : Effect s .frameFill t := by
  unfold execFrameFill at h
  split at h
  · next hc =>
    obtain ⟨hl, -, rfl⟩ := frameReading_eq_next _ _ _ s t h
    exact .frame _ _ rfl (block_of_fill _ _ _ hl hc)
  · cases h

theorem execFrameLen_effect (s t : State) (h : execFrameLen s = .next t) : Effect s .frameLen t := by
  unfold execFrameLen at h
  split at h
  · next hc =>
    obtain ⟨hl, -, rfl⟩ := frameReading_eq_next _ _ _ s t h
    exact .frame _ _ rfl (block_of_length _ _ _ hl hc)
  · cases h

theorem execStart_effect (len : BitVec 64) (s t : State) (h : execStart len s = .next t) : Effect s (.start len) t := by
  unfold execStart at h
  split at h
  · next hr => cases h; exact .start len hr
  · next hr => cases h; exact .startIgnored len (by simpa using hr)

theorem execExpand_effect (s t : State) (h : execExpand s = .next t) : Effect s .expand t := by
  unfold execExpand at h
  split at h
  · next ht => cases h; exact .expand ht
  · cases h

theorem execAccum_effect (s t : State) (h : execAccum s = .next t) : Effect s .accum t := by
  unfold execAccum at h
  split at h
  · next hb => cases h; exact .accum hb
  · cases h

/-- The inversion of an operation that goes on. -/
theorem exec_effect (i : Instr) (s t : State) (h : exec i s = .next t) : Effect s i t := by
  cases i with
  | reset => cases h; exact .reset
  | start len => exact execStart_effect len s t h
  | holdIdle => cases h; exact .hold _ .idle rfl rfl
  | chk => exact execChk_effect s t h
  | frameFull => exact execFrameFull_effect s t h
  | frameFinal => exact execFrameFinal_effect s t h
  | frameFill => exact execFrameFill_effect s t h
  | frameLen => exact execFrameLen_effect s t h
  | unpack => cases h; exact .unpack
  | expand => exact execExpand_effect s t h
  | load => cases h; exact .load
  | roundCh =>
    exact roundStep_effect 0 fCh k0 _ s t rfl (fun n _ h1 _ r w => by simp [round, show n < 20 by omega]) h
  | roundPar1 =>
    exact roundStep_effect 20 fPar k1 _ s t rfl
      (fun n h0 h1 _ r w => by simp [round, show ¬ n < 20 by omega, show n < 40 by omega]) h
  | roundMaj =>
    exact roundStep_effect 40 fMaj k2 _ s t rfl
      (fun n h0 h1 _ r w => by simp [round, show ¬ n < 20 by omega, show ¬ n < 40 by omega, show n < 60 by omega]) h
  | roundPar2 =>
    exact roundStep_effect 60 fPar k3 _ s t rfl
      (fun n h0 _ _ r w => by simp [round, show ¬ n < 20 by omega, show ¬ n < 40 by omega, show ¬ n < 60 by omega]) h
  | accum => exact execAccum_effect s t h
  | fmt => cases h; exact .fmt
  | holdDone => cases h; exact .hold _ .done rfl rfl
  | holdError => cases h; exact .hold _ .error rfl rfl

/-- The inversion of a step that goes on: the effect of one operation, which is the host's or belongs to the phase. -/
theorem step_effect (s t : State) (h : step s = .next t) :
    ∃ i : Instr, Effect s.consume i t ∧ ∀ p, i.ownPhase = some p → s.ph = p := by
  obtain ⟨i, hf, he⟩ := (step_next_iff s t).1 h
  exact ⟨i, exec_effect i _ t he, fun p hp => ph_of_fetch s i p hf hp⟩

/-! ## Written by (rule R20) -/

/-- Settles O35, by what each operation's effect names. -/
theorem registersAreWrittenOnlyByTheirWriters : Obligations.RegistersAreWrittenOnlyByTheirWriters := by
  intro i s t hi h
  cases exec_effect i s t h with
  | reset => exact absurd rfl hi
  | start len hr => simp
  | startIgnored len hr => simp
  | hold i p hp hr => simp
  | overflow hl => simp
  | accept hl => simp
  | frame i b hp hb => cases i <;> cases hp <;> simp
  | unpack => simp
  | expand ht => simp
  | load => simp
  | round i ht hp => cases i <;> cases hp <;> simp
  | accum hb => simp
  | fmt => simp

/-! ## The invariants (rule R40 (a) to (f)) -/

/-- With `ERR = 0` in `IDLE` the invariants ask only for canonical message spaces. -/
theorem State.Inv.of_idle {s : State} (hp : s.ph = .idle) (he : s.err = false) (hm : Memory.wf s.msg = true)
    (hm' : Memory.wf s.ports.msg = true) : s.Inv where
  errorFlag := by simp [hp, he]
  accepted := by simp [hp, Phase.resting]
  blockIndex := by simp [hp, Phase.onBlock]
  index := by simp [State.indexInRange, hp]
  indexBound := by simp [State.indexLive, hp]
  finished := by simp [hp]
  message := hm
  presented := hm'

/-- Settles O47: reset is `IDLE`, whatever the other registers hold. -/
theorem invariantHoldsAtReset : Obligations.InvariantHoldsAtReset :=
  ⟨.of_idle rfl rfl State.reset_msg_wf.1 State.reset_msg_wf.2,
    fun _ _ _ _ _ _ _ _ _ => .of_idle rfl rfl State.reset_msg_wf.1 State.reset_msg_wf.2⟩

/-- Sampling the port lines keeps the invariants: they do not speak of the strobes. -/
theorem State.Inv.consume {s : State} (h : s.Inv) : s.consume.Inv where
  errorFlag := h.errorFlag
  accepted := h.accepted
  blockIndex := h.blockIndex
  index := h.index
  indexBound := h.indexBound
  finished := h.finished
  message := h.message
  presented := h.presented

theorem State.Inv.toReset {s : State} (h : s.Inv) : s.toReset.Inv := .of_idle rfl rfl h.message h.presented

theorem State.Inv.beginTransaction {s : State} (h : s.Inv) (len : BitVec 64) : (s.beginTransaction len).Inv where
  errorFlag := by simp
  accepted := by simp
  blockIndex := by simp [Phase.onBlock]
  index := trivial
  indexBound := by simp [State.indexLive]
  finished := by simp
  message := h.presented
  presented := h.presented

theorem State.Inv.raiseLengthOverflow {s : State} (h : s.Inv) : s.raiseLengthOverflow.Inv where
  errorFlag := by simp
  accepted := by simp [Phase.resting]
  blockIndex := by simp [Phase.onBlock]
  index := trivial
  indexBound := by simp [State.indexLive]
  finished := by simp
  message := h.message
  presented := h.presented

/-- There is a block in every message. -/
theorem blockCount_pos (L : Nat) : 0 < blockCount L := by
  unfold blockCount
  split <;> omega

/-- CHK lets a length pass: `NB` holds the block count exactly, and block 0 is below it. -/
theorem State.Inv.accept {s : State} (h : s.Inv) (hp : s.ph = .chk) (hl : s.len.toNat < lengthLimit) :
    State.Inv { s with h := iv, nb := BitVec.ofNat 56 (blockCount s.len.toNat), bi := 0, ph := .frame } where
  errorFlag := by simpa [hp] using h.errorFlag
  accepted := fun _ _ => ⟨hl, blockCount_toNat _ hl⟩
  blockIndex := fun _ => (blockCount_toNat _ hl).symm ▸ blockCount_pos _
  index := trivial
  indexBound := by simp [State.indexLive]
  finished := by simp
  message := h.message
  presented := h.presented

theorem Phase.onBlock_busy {p : Phase} (h : p.onBlock = true) :
    p.resting = false ∧ p ≠ .chk ∧ p ≠ .error ∧ p ≠ .fmt ∧ p ≠ .done := by
  cases p <;> simp_all [Phase.onBlock, Phase.resting]

theorem State.Inv.err_of_onBlock {s : State} (h : s.Inv) (hp : s.ph.onBlock = true) : s.err = false := by
  simpa [(Phase.onBlock_busy hp).2.2.1] using h.errorFlag

/-- From one block phase to another of the same block, only the rules about `T` can break. -/
theorem State.Inv.within_block {s : State} (h : s.Inv) (hp : s.ph.onBlock = true) {p : Phase} (hq : p.onBlock = true)
    {sr : SRegs} {w : Schedule} {blk : Block} {t : BitVec 7}
    (index : State.indexInRange { s with s := sr, w := w, blk := blk, t := t, ph := p })
    (bound : State.indexBounded { s with s := sr, w := w, blk := blk, t := t, ph := p }) :
    State.Inv { s with s := sr, w := w, blk := blk, t := t, ph := p } := by
  obtain ⟨hbusy, hchk, -, -, -⟩ := Phase.onBlock_busy hp
  obtain ⟨-, -, herror, hfmt, hdone⟩ := Phase.onBlock_busy hq
  exact
    { errorFlag := by simp [h.err_of_onBlock hp, herror]
      accepted := fun _ _ => h.accepted hbusy hchk
      blockIndex := fun _ => h.blockIndex hp
      index := index
      indexBound := bound
      finished := by simp [hfmt, hdone]
      message := h.message
      presented := h.presented }

/-- An index below 80 does not wrap. -/
theorem index_succ_toNat (t : BitVec 7) (h : t.toNat < 80) : (t + 1).toNat = t.toNat + 1 := by
  bv_omega

/-- A block index below `NB` does not wrap. -/
theorem blockIndex_succ_toNat (bi nb : BitVec 56) (h : bi.toNat < nb.toNat) : (bi + 1).toNat = bi.toNat + 1 := by
  bv_omega

theorem State.Inv.leaveFrame {s : State} (h : s.Inv) (hp : s.ph = .frame) (b : Block) : (s.leaveFrame b).Inv :=
  h.within_block (by simp [hp, Phase.onBlock]) rfl trivial fun hlive =>
    h.indexBound (by simpa [State.indexLive, hp] using hlive)

theorem State.Inv.unpack {s : State} (h : s.Inv) (hp : s.ph = .unpack) (w : Schedule) :
    State.Inv { s with w := w, t := 16, ph := .expand } :=
  h.within_block (by simp [hp, Phase.onBlock]) rfl ⟨Nat.le_refl 16, (by decide : 16 ≤ 79)⟩ fun _ => (by decide : 16 ≤ 80)

theorem State.Inv.expand {s : State} (h : s.Inv) (hp : s.ph = .expand) (w : Schedule) :
    State.Inv { s with w := w, t := s.t + 1, ph := if s.t.toNat + 1 = 80 then .load else .expand } := by
  have ht : 16 ≤ s.t.toNat ∧ s.t.toNat ≤ 79 := by simpa [State.indexInRange, hp] using h.index
  have hsucc := index_succ_toNat s.t (by omega)
  have hbound : (s.t + 1).toNat ≤ 80 := by omega
  split
  · next hlast =>
    exact h.within_block (by simp [hp, Phase.onBlock]) rfl (hsucc.trans hlast) fun _ => hbound
  · next hlast =>
    have hrange : 16 ≤ (s.t + 1).toNat ∧ (s.t + 1).toNat ≤ 79 := by omega
    exact h.within_block (by simp [hp, Phase.onBlock]) rfl hrange fun _ => hbound

theorem State.Inv.load {s : State} (h : s.Inv) (hp : s.ph = .load) (sr : SRegs) :
    State.Inv { s with s := sr, t := 0, ph := .round } :=
  h.within_block (by simp [hp, Phase.onBlock]) rfl (Nat.zero_le 79) fun _ => Nat.zero_le 80

theorem State.Inv.round {s : State} (h : s.Inv) (hp : s.ph = .round) (sr : SRegs) :
    State.Inv { s with s := sr, t := s.t + 1, ph := if s.t.toNat + 1 = 80 then .accum else .round } := by
  have ht : s.t.toNat ≤ 79 := by simpa [State.indexInRange, hp] using h.index
  have hsucc := index_succ_toNat s.t (by omega)
  have hbound : (s.t + 1).toNat ≤ 80 := by omega
  split
  · next hlast =>
    exact h.within_block (by simp [hp, Phase.onBlock]) rfl (hsucc.trans hlast) fun _ => hbound
  · next hlast =>
    have hrange : (s.t + 1).toNat ≤ 79 := by omega
    exact h.within_block (by simp [hp, Phase.onBlock]) rfl hrange fun _ => hbound

/-- ACCUM goes on to the next block, or to the formatter with `BI = NB`. -/
theorem State.Inv.accum {s : State} (h : s.Inv) (hp : s.ph = .accum) (hr : HRegs) :
    State.Inv { s with h := hr, bi := s.bi + 1, ph := if s.bi.toNat + 1 = s.nb.toNat then .fmt else .frame } := by
  have hblock : s.ph.onBlock = true := by simp [hp, Phase.onBlock]
  have hbi := h.blockIndex hblock
  have hsucc := blockIndex_succ_toNat s.bi s.nb hbi
  have ht : s.t.toNat ≤ 80 := h.indexBound (by simp [State.indexLive, hp])
  have haccepted := h.accepted (Phase.onBlock_busy hblock).1 (Phase.onBlock_busy hblock).2.1
  split
  · next hlast =>
    exact
      { errorFlag := by simp [h.err_of_onBlock hblock]
        accepted := fun _ _ => haccepted
        blockIndex := by simp [Phase.onBlock]
        index := trivial
        indexBound := fun _ => ht
        finished := fun _ => BitVec.eq_of_toNat_eq (hsucc.trans hlast)
        message := h.message
        presented := h.presented }
  · next hlast =>
    exact
      { errorFlag := by simp [h.err_of_onBlock hblock]
        accepted := fun _ _ => haccepted
        blockIndex := fun _ => by simp only [hsucc]; omega
        index := trivial
        indexBound := fun _ => ht
        finished := by simp
        message := h.message
        presented := h.presented }

theorem State.Inv.fmt {s : State} (h : s.Inv) (hp : s.ph = .fmt) (d : Digest) :
    State.Inv { s with digest := d, ph := .done } where
  errorFlag := by simpa [hp] using h.errorFlag
  accepted := by simp [Phase.resting]
  blockIndex := by simp [Phase.onBlock]
  index := trivial
  indexBound := fun _ => h.indexBound (by simp [State.indexLive, hp])
  finished := fun _ => h.finished (.inl hp)
  message := h.message
  presented := h.presented

/-- An operation in its own phase keeps the invariants. -/
theorem Effect.keeps_inv {s t : State} {i : Instr} (he : Effect s i t) (hph : ∀ p, i.ownPhase = some p → s.ph = p)
    (h : s.Inv) : t.Inv := by
  cases he with
  | reset => exact h.toReset
  | start len _ => exact h.beginTransaction len
  | startIgnored => exact h
  | hold => exact h
  | overflow _ => exact h.raiseLengthOverflow
  | accept hl => exact h.accept (hph _ rfl) hl
  | frame i b hp _ => exact h.leaveFrame (hph _ hp) b
  | unpack => exact h.unpack (hph _ rfl) _
  | expand ht => exact h.expand (hph _ rfl) _
  | load => exact h.load (hph _ rfl) _
  | round i ht hp => exact h.round (hph _ hp) _
  | accum _ => exact h.accum (hph _ rfl) _
  | fmt => exact h.fmt (hph _ rfl) _

/-- Settles O48, by the effect of the operation performed. -/
theorem invariantIsKeptByEveryStep : Obligations.InvariantIsKeptByEveryStep := fun s t h hstep =>
  let ⟨_, he, hph⟩ := step_effect s t hstep
  he.keeps_inv hph h.consume

/-! ## The agreement of the registers with the stages' functions (rule R40 (g)) -/

/-- Settles O49: in `IDLE` the agreement asks nothing beyond the invariants. -/
theorem agreementHoldsAtReset : Obligations.AgreementHoldsAtReset := ⟨invariantHoldsAtReset.1, trivial⟩

/-- After UNPACK the first sixteen words are those of the schedule. -/
theorem agrees_after_unpack {s : State} (hp : s.ph = .unpack) (h : s.agrees) :
    State.agrees { s with w := withWordBlock s.w (unpack s.blk), t := 16, ph := .expand } := by
  simp only [State.agrees, State.threaded, State.framed, hp] at h
  obtain ⟨hh, hf⟩ := h
  refine ⟨hh, hf, fun j hj hlt => ?_⟩
  have hj16 : j < 16 := hlt
  exact (withWordBlock_getElem_of_lt _ _ j hj16).trans (expand_getElem_of_lt _ j hj16).symm

/-- After EXPAND one more word is that of the schedule, and after the last all are. -/
theorem agrees_after_expand {s : State} (hp : s.ph = .expand) (h : s.agrees) (ht : 16 ≤ s.t.toNat ∧ s.t.toNat < 80) :
    State.agrees { s with
      w := s.w.set s.t.toNat (scheduleWord s.w s.t.toNat ht) ht.2
      t := s.t + 1
      ph := if s.t.toNat + 1 = 80 then .load else .expand } := by
  simp only [State.agrees, State.threaded, State.framed, hp] at h
  obtain ⟨hh, hf, hw⟩ := h
  have hset := set_scheduleWord_getElem s.w (unpack s.blk) s.t.toNat ht hw
  split
  · next hlast => exact ⟨hh, hf, Vector.ext fun j hj => hset j hj (by omega)⟩
  · next hlast =>
    rw [← index_succ_toNat s.t ht.2] at hset
    exact ⟨hh, hf, hset⟩

theorem agrees_after_load {s : State} (hp : s.ph = .load) (h : s.agrees) :
    State.agrees { s with s := s.h.toWorking, t := 0, ph := .round } := by
  simp only [State.agrees, State.threaded, State.framed, hp] at h
  obtain ⟨hh, hf, hw⟩ := h
  exact ⟨hh, hf, hw, rfl⟩

/-- After a ROUND.* one more round is done, and after the last the block is compressed. -/
theorem agrees_after_round {s : State} (hp : s.ph = .round) (h : s.agrees) (ht : s.t.toNat < 80) :
    State.agrees { s with
      s := round s.s s.t.toNat s.w[s.t.toNat]
      t := s.t + 1
      ph := if s.t.toNat + 1 = 80 then .accum else .round } := by
  simp only [State.agrees, State.threaded, State.framed, hp] at h
  obtain ⟨hh, hf, hw, hs⟩ := h
  have hround : round s.s s.t.toNat s.w[s.t.toNat] = roundsFirst s.h.toWorking s.w (s.t.toNat + 1) := by
    rw [roundsFirst_succ _ _ _ ht, ← hs]
  split
  · next hlast =>
    rw [hlast] at hround
    exact ⟨hh, hf, hw, hround⟩
  · next hlast =>
    rw [← index_succ_toNat s.t ht] at hround
    exact ⟨hh, hf, hw, hround⟩

/-- ACCUM threads the State through block `BI` (43_compress.md rules R147, R148). -/
theorem agrees_after_accum {s : State} (hp : s.ph = .accum) (h : s.agrees) (hb : s.bi.toNat < s.nb.toNat) :
    State.agrees { s with
      h := s.h.accumulate s.s
      bi := s.bi + 1
      ph := if s.bi.toNat + 1 = s.nb.toNat then .fmt else .frame } := by
  simp only [State.agrees, State.threaded, State.framed, hp] at h
  obtain ⟨hh, hf, hw, hs⟩ := h
  have hthreaded : s.h.accumulate s.s = absorbFirst s.msg s.len.toNat (s.bi + 1).toNat := by
    rw [blockIndex_succ_toNat s.bi s.nb hb, absorbFirst_succ _ _ _ _ hf, ← hh, hs, hw, absorb]
  split
  · exact hthreaded
  · exact hthreaded

/-- FMT renders the State threaded through all `N(L)` blocks. -/
theorem agrees_after_fmt {s : State} (hp : s.ph = .fmt) (hinv : s.Inv) (h : s.agrees) :
    State.agrees { s with digest := format s.h, ph := .done } := by
  simp only [State.agrees, State.threaded, hp] at h
  obtain ⟨hl, hnb⟩ := hinv.accepted (by simp [hp, Phase.resting]) (by simp [hp])
  rw [hinv.finished (.inl hp), hnb] at h
  exact ⟨hl, h, rfl⟩

/-- An operation in its own phase keeps the agreement: from what the stage before it left it makes what the next one
finds. -/
theorem Effect.keeps_agrees {s t : State} {i : Instr} (he : Effect s i t)
    (hph : ∀ p, i.ownPhase = some p → s.ph = p) (hinv : s.Inv) (h : s.agrees) : t.agrees := by
  cases he with
  | reset => trivial
  | start => trivial
  | startIgnored => exact h
  | hold => exact h
  | overflow => trivial
  | accept => exact (rfl : iv = absorbFirst s.msg s.len.toNat 0)
  | frame i b hp hb =>
    simp only [State.agrees, State.threaded, hph _ hp] at h
    exact ⟨h, hb⟩
  | unpack => exact agrees_after_unpack (hph _ rfl) h
  | expand ht => exact agrees_after_expand (hph _ rfl) h ht
  | load => exact agrees_after_load (hph _ rfl) h
  | round i ht hp => exact agrees_after_round (hph _ hp) h ht
  | accum hb => exact agrees_after_accum (hph _ rfl) h hb
  | fmt => exact agrees_after_fmt (hph _ rfl) hinv h

theorem Effect.keeps_correct {s t : State} {i : Instr} (he : Effect s i t)
    (hph : ∀ p, i.ownPhase = some p → s.ph = p) (h : s.Correct) : t.Correct :=
  ⟨he.keeps_inv hph h.inv, he.keeps_agrees hph h.inv h.agrees⟩

theorem State.Correct.consume {s : State} (h : s.Correct) : s.consume.Correct := ⟨h.inv.consume, h.agrees⟩

/-- In `DONE` the digest register holds the hash of the bound message and the rendering of `H`. -/
theorem State.Correct.digest_of_done {s : State} (h : s.Correct) (hp : s.ph = .done) :
    hash s.msg s.len.toNat = .ok s.digest ∧ s.digest = format s.h := by
  have hagrees := h.agrees
  simp only [State.agrees, hp] at hagrees
  obtain ⟨hl, hh, hd⟩ := hagrees
  refine ⟨?_, hd⟩
  rw [hash, if_neg (by omega), hd, hh]

/-- Settles O50, by the effect of the operation performed. -/
theorem agreementIsKeptByEveryStep : Obligations.AgreementIsKeptByEveryStep :=
  ⟨fun s t h hstep =>
    let ⟨_, he, hph⟩ := step_effect s t hstep
    he.keeps_correct hph h.consume,
  fun _ h hp => (h.digest_of_done hp).1⟩

/-! ## Reset and the ports (rules R33, R34, R38) -/

/-- Settles O46: the fields of `State.reset` and the ports that show them. -/
theorem resetStateIsIdle : Obligations.ResetStateIsIdle := ⟨rfl, rfl, rfl, rfl⟩

theorem status_eq_done_of_statusPort (s : State) (h : s.statusPort = 2#2) : s.ph.status = .done := by
  unfold State.statusPort at h
  cases hs : s.ph.status with
  | done => rfl
  | idle | busy | error => rw [hs] at h; cases h

theorem ph_eq_done_of_status {p : Phase} (h : p.status = .done) : p = .done := by
  cases p with
  | done => rfl
  | _ => cases h

/-- Settles O60: the ports read the registers, and the registers agree with the functions. -/
theorem resultPortsShowTheHashInDone : Obligations.ResultPortsShowTheHashInDone := by
  intro s hport
  have hstatus := status_eq_done_of_statusPort s hport
  have hh : ∀ (read : Nat) (k : Fin 5), s.hPort read k = s.h.get k := fun _ _ => if_pos hstatus
  have hd : ∀ (read : Nat) (k : Fin 40), s.digestPort read k = s.digest[k] := fun _ _ => if_pos hstatus
  refine ⟨hh, hd, fun hc read => ?_⟩
  obtain ⟨hhash, hformat⟩ := hc.digest_of_done (ph_eq_done_of_status hstatus)
  have hbytes : (Vector.ofFn fun k : Fin 40 => s.digestPort read k) = s.digest := by
    ext k hk
    simp [hd]
  exact ⟨hbytes ▸ hhash, fun k => by rw [hd, hformat]⟩

end Sys2Proof.Machine
end

section
/-! PROOFS of the statements of 20_memory.md: where the bit length stands (rule R54), the message as a space that only an
accepted START changes (rules R50, R62), and which of its indexes a transaction reads (rule R57). -/

namespace Sys2Proof.Machine

/-! ## The length field of the last block -/

theorem be32_toNat (b0 b1 b2 b3 : Byte) :
    (be32 b0 b1 b2 b3).toNat = b0.toNat * 2 ^ 24 + b1.toNat * 2 ^ 16 + b2.toNat * 2 ^ 8 + b3.toNat := by
  rw [be32, BitVec.toNat_ofNat, Nat.mod_eq_of_lt]
  have h0 := b0.isLt
  have h1 := b1.isLt
  have h2 := b2.isLt
  have h3 := b3.isLt
  omega

theorem unpack_getElem (b : Block) (i : Nat) (h : i < 16) :
    (unpack b)[i] = be32 b[4 * i] b[4 * i + 1] b[4 * i + 2] b[4 * i + 3] := by
  simp [unpack]

/-- The last block ends in the eight bytes of the bit length, whichever of its two forms it has (40_padder.md rule R102). -/
theorem exists_lastBlock_lengthField (m : Memory) (L : Nat) (hL : L < lengthLimit) :
    ∃ b : Block, block m L (blockCount L - 1) = some b ∧
      ∀ (i : Nat) (h : i < 8), b[56 + i] = be64byte (bitLength L) i := by
  by_cases hr : tailLength L ≤ 55
  · have hj : blockCount L - 1 = fullBlocks L := by simp [blockCount, hr]
    refine ⟨finalBlock m L, block_of_final m L _ hL ⟨hj, hr⟩, fun i h => ?_⟩
    simp [finalBlock, show ¬ 56 + i < tailLength L by omega, show 56 + i ≠ tailLength L by omega]
  · have hj : blockCount L - 1 = fullBlocks L + 1 := by simp [blockCount, hr]
    refine ⟨lengthBlock L, block_of_length m L _ hL ⟨hj, by omega⟩, fun i h => ?_⟩
    simp [lengthBlock]

/-- Words 14 and 15 of a block that ends in the eight bytes of `v` are the two halves of `v`. -/
theorem unpack_length_words (b : Block) (v : Nat) (hv : v < 2 ^ 64)
    (h : ∀ (i : Nat) (h : i < 8), b[56 + i] = be64byte v i) :
    (unpack b)[14].toNat * 2 ^ 32 + (unpack b)[15].toNat = v := by
  have hupper : (unpack b)[14] = be32 (be64byte v 0) (be64byte v 1) (be64byte v 2) (be64byte v 3) := by
    rw [unpack_getElem, ← h 0 (by omega), ← h 1 (by omega), ← h 2 (by omega), ← h 3 (by omega)]
  have hlower : (unpack b)[15] = be32 (be64byte v 4) (be64byte v 5) (be64byte v 6) (be64byte v 7) := by
    rw [unpack_getElem, ← h 4 (by omega), ← h 5 (by omega), ← h 6 (by omega), ← h 7 (by omega)]
  have hsum := be64byte_weighted_sum v hv
  simp only [List.range_succ, List.range_zero, List.map_append, List.sum_append, List.map_singleton,
    List.sum_singleton, List.sum_nil, List.map_nil, Nat.reduceSub, Nat.reducePow] at hsum
  rw [hupper, hlower, be32_toNat, be32_toNat]
  omega

/-- Settles O11: the last block ends in the length field, and its eight bytes are the words 14 and 15. -/
theorem bitLengthSitsInLastWords : Obligations.BitLengthSitsInLastWords := by
  intro m L hL
  obtain ⟨b, hb, hfield⟩ := exists_lastBlock_lengthField m L hL
  exact ⟨b, hb, unpack_length_words b _ (bitLength_lt L hL) hfield⟩

/-! ## Where the message changes -/

/-- A step performs START only where the host has raised it, without `rst`, in a resting phase. -/
theorem start_raised_of_fetch (s : State) (len : BitVec 64) (h : s.fetch = .ok (.start len)) :
    s.ports.rst = false ∧ s.ports.start = true ∧ s.ph.resting = true := by
  obtain ⟨w, hw, hd⟩ := fetch_eq_ok s _ h
  unfold State.operationWord at hw
  split at hw
  · cases hw; cases hd
  · next hr =>
    split at hw
    · cases hw
    · split at hw
      · next hs => exact ⟨by simpa using hr, by simpa using hs⟩
      · split at hw
        · next c hc =>
          obtain ⟨sub, rfl⟩ := controlWord_eq_code_append s c hc
          cases hw
          rw [decode_controlWord] at hd
          cases ownPhase_of_decodeControl _ _ _ hd
        · cases hw

/-- Every operation keeps the bound message, except a START in a resting phase, which binds the presented one. -/
theorem Effect.msg_cases {s t : State} {i : Instr} (he : Effect s i t) :
    t.msg = s.msg ∨ ∃ len, i = .start len ∧ s.ph.resting = true ∧ t = s.beginTransaction len := by
  cases he with
  | start len hr => exact .inr ⟨len, rfl, hr, rfl⟩
  | _ => exact .inl rfl

/-- Settles O43: the one effect that changes the message is that of an accepted START. -/
theorem messageIsImmutableDuringTransaction : Obligations.MessageIsImmutableDuringTransaction := by
  intro s t hstep
  obtain ⟨i, hf, hexec⟩ := (step_next_iff s t).1 hstep
  rcases (exec_effect i _ t hexec).msg_cases with hmsg | ⟨len, rfl, -, rfl⟩
  · exact ⟨fun _ => hmsg, fun hne => absurd hmsg hne⟩
  · obtain ⟨hrst, hstart, hresting⟩ := start_raised_of_fetch s len hf
    exact ⟨by simp [hresting], fun _ => ⟨hrst, hstart, hresting, rfl, rfl⟩⟩

/-! ## What an operation asks for, and that it sees nothing else -/

theorem messageReads_eq_nil (i : Instr) (s : State) (h : i.ownPhase ≠ some .frame) : messageReads i s = [] := by
  cases i with
  | frameFull | frameFinal | frameFill | frameLen => exact absurd rfl h
  | _ => rfl

/-- The indexes from `base` on, up to 64 of them, as a slice of the message's indexes. -/
theorem map_range_eq_take_drop (L base n : Nat) (hn : n = min 64 (L - base)) :
    (List.range n).map (base + ·) = ((List.range L).drop base).take 64 := by
  apply List.ext_getElem
  · simp [hn]
  · simp

/-- An operation that refuses outside its guard and goes on has its guard. -/
theorem guarded_eq_next {c : Prop} [Decidable c] {o : Outcome} {r : Refusal} {t : State}
    (h : (if c then o else .refused r) = .next t) : c ∧ o = .next t := by
  split at h
  · next hc => exact ⟨hc, h⟩
  · cases h

/-- A FRAME.* operation that goes on asks for the next 64 message indexes, or for those that are left. -/
theorem messageReads_of_frame (i : Instr) (s t : State) (hi : i.ownPhase = some .frame) (h : exec i s = .next t) :
    messageReads i s = ((List.range s.len.toNat).drop (64 * s.bi.toNat)).take 64 := by
  cases i <;> cases hi
  case frameFull =>
    obtain ⟨-, hlen, -⟩ := frameReading_eq_next _ _ _ s t h
    exact map_range_eq_take_drop _ _ 64 (by omega)
  case frameFinal | frameFill =>
    obtain ⟨⟨hq, -⟩, -⟩ := guarded_eq_next h
    exact map_range_eq_take_drop _ _ _ (by unfold fullBlocks at hq; unfold tailLength; omega)
  case frameLen =>
    obtain ⟨⟨hq, -⟩, -⟩ := guarded_eq_next h
    exact map_range_eq_take_drop _ _ 0 (by unfold fullBlocks at hq; omega)

/-- Only indexes of the message are asked for (20_memory.md rule R51). -/
theorem lt_len_of_mem_messageReads (i : Instr) (s t : State) (h : exec i s = .next t) (a : Nat)
    (ha : a ∈ messageReads i s) : a < s.len.toNat := by
  by_cases hi : i.ownPhase = some .frame
  · rw [messageReads_of_frame i s t hi h] at ha
    exact List.mem_range.1 (List.mem_of_mem_drop (List.mem_of_mem_take ha))
  · rw [messageReads_eq_nil i s hi] at ha
    cases ha

theorem fullBlock_congr (m m' : Memory) (j : Nat)
    (h : ∀ k, k < 64 → Memory.read m (64 * j + k) = Memory.read m' (64 * j + k)) : fullBlock m j = fullBlock m' j := by
  ext k hk
  simp [fullBlock, h k hk]

theorem finalBlock_congr (m m' : Memory) (L : Nat)
    (h : ∀ k, k < tailLength L → Memory.read m (64 * fullBlocks L + k) = Memory.read m' (64 * fullBlocks L + k)) :
    finalBlock m L = finalBlock m' L := by
  ext k hk
  by_cases hr : k < tailLength L
  · simp [finalBlock, hr, h k hr]
  · simp [finalBlock, hr]

theorem fillBlock_congr (m m' : Memory) (L : Nat)
    (h : ∀ k, k < tailLength L → Memory.read m (64 * fullBlocks L + k) = Memory.read m' (64 * fullBlocks L + k)) :
    fillBlock m L = fillBlock m' L := by
  ext k hk
  by_cases hr : k < tailLength L
  · simp [fillBlock, hr, h k hr]
  · simp [fillBlock, hr]

/-- Two states that differ in the bound message leave the same block, where the operation forms the same block. -/
theorem frameReading_rebind (base n : Nat) (b b' : Block) (s t : State) (m : Memory) (hb : b = b')
    (h : frameReading base n b s = .next t) :
    frameReading base n b' { s with msg := m } = .next { t with msg := m } := by
  obtain ⟨hl, hi, rfl⟩ := frameReading_eq_next base n b s t h
  subst hb
  exact frameReading_next base n b { s with msg := m } hl hi

/-- A ROUND.* operation does not see the message. -/
theorem roundStep_rebind (lo : Nat) (f : Word → Word → Word → Word) (k : Word) (s t : State) (m : Memory)
    (h : roundStep lo f k s = .next t) : roundStep lo f k { s with msg := m } = .next { t with msg := m } := by
  by_cases hg : lo ≤ s.t.toNat ∧ s.t.toNat < lo + 20 ∧ s.t.toNat < 80
  · cases (roundStep_next lo f k s hg).symm.trans h
    exact roundStep_next lo f k { s with msg := m } hg
  · cases (roundStep_refused lo f k s hg).symm.trans h

/-- An operation other than START, which binds a new message, has the same effect on every message that agrees on the
indexes it asks for. -/
theorem exec_rebind (i : Instr) (s t : State) (m : Memory) (hi : ∀ len : BitVec 64, i ≠ .start len)
    (h : exec i s = .next t) (hm : ∀ a, a ∈ messageReads i s → Memory.read s.msg a = Memory.read m a) :
    exec i { s with msg := m } = .next { t with msg := m } := by
  cases i with
  | start len => exact absurd rfl (hi len)
  | reset | holdIdle | unpack | load | fmt | holdDone | holdError => cases h; rfl
  | chk =>
    replace h : execChk s = .next t := h
    unfold execChk at h
    split at h
    · next hl => cases h; exact if_pos hl
    · next hl => cases h; exact if_neg hl
  | frameFull =>
    exact frameReading_rebind _ _ _ _ s t m (fullBlock_congr s.msg m _ (by simpa [messageReads] using hm)) h
  | frameFinal =>
    obtain ⟨hc, hread⟩ := guarded_eq_next h
    exact (if_pos hc).trans (frameReading_rebind _ _ _ _ s t m
      (finalBlock_congr s.msg m _ (by simpa [messageReads, hc.1] using hm)) hread)
  | frameFill =>
    obtain ⟨hc, hread⟩ := guarded_eq_next h
    exact (if_pos hc).trans (frameReading_rebind _ _ _ _ s t m
      (fillBlock_congr s.msg m _ (by simpa [messageReads, hc.1] using hm)) hread)
  | frameLen =>
    obtain ⟨hc, hread⟩ := guarded_eq_next h
    exact (if_pos hc).trans (frameReading_rebind _ _ _ _ s t m rfl hread)
  | expand =>
    replace h : execExpand s = .next t := h
    unfold execExpand at h
    split at h
    · next ht => cases h; exact dif_pos ht
    · cases h
  | roundCh => exact roundStep_rebind 0 fCh k0 s t m h
  | roundPar1 => exact roundStep_rebind 20 fPar k1 s t m h
  | roundMaj => exact roundStep_rebind 40 fMaj k2 s t m h
  | roundPar2 => exact roundStep_rebind 60 fPar k3 s t m h
  | accum =>
    obtain ⟨hc, hnext⟩ := guarded_eq_next h
    cases hnext
    exact if_pos hc

/-! ## The core's own step, from any bound message -/

/-- The state with the empty message bound and presented. -/
def State.withoutMessages (s : State) : State := { s with msg := [], ports := { s.ports with msg := [] } }

/-- The invariants of rule R40 but for the canonical form of the message spaces, which no control decision needs and which
a command does not bring. -/
def State.ControlInv (s : State) : Prop := s.withoutMessages.Inv

theorem State.ControlInv.reachable {s : State} (h : s.ControlInv) : s.unreachable = none :=
  State.Inv.reachable (s := s.withoutMessages) h

theorem State.ControlInv.accepted {s : State} (h : s.ControlInv) (hr : s.ph.resting = false) (hc : s.ph ≠ .chk) :
    s.len.toNat < lengthLimit ∧ s.nb.toNat = blockCount s.len.toNat :=
  State.Inv.accepted (s := s.withoutMessages) h hr hc

theorem State.ControlInv.blockIndex {s : State} (h : s.ControlInv) (hb : s.ph.onBlock = true) :
    s.bi.toNat < s.nb.toNat := State.Inv.blockIndex (s := s.withoutMessages) h hb

theorem State.ControlInv.index {s : State} (h : s.ControlInv) : s.indexInRange :=
  State.Inv.index (s := s.withoutMessages) h

theorem State.ControlInv.of_chk {s : State} (hp : s.ph = .chk) (he : s.err = false) : s.ControlInv where
  errorFlag := by simp [State.withoutMessages, hp, he]
  accepted := by simp [State.withoutMessages, hp]
  blockIndex := by simp [State.withoutMessages, hp, Phase.onBlock]
  index := by simp [State.withoutMessages, State.indexInRange, hp]
  indexBound := by simp [State.withoutMessages, State.indexLive, hp]
  finished := by simp [State.withoutMessages, hp]
  message := rfl
  presented := rfl

/-- An operation in its own phase keeps the control invariants: the lemmas for the whole of rule R40 hold for the state
without its messages. -/
theorem Effect.keeps_controlInv {s t : State} {i : Instr} (he : Effect s i t)
    (hph : ∀ p, i.ownPhase = some p → s.ph = p) (h : s.ControlInv) : t.ControlInv := by
  cases he with
  | reset => exact State.Inv.toReset h
  | start len _ => exact State.Inv.beginTransaction h len
  | startIgnored => exact h
  | hold => exact h
  | overflow _ => exact State.Inv.raiseLengthOverflow h
  | accept hl => exact State.Inv.accept h (hph _ rfl) hl
  | frame i b hp _ => exact State.Inv.leaveFrame h (hph _ hp) b
  | unpack => exact State.Inv.unpack h (hph _ rfl) _
  | expand ht => exact State.Inv.expand h (hph _ rfl) _
  | load => exact State.Inv.load h (hph _ rfl) _
  | round i ht hp => exact State.Inv.round h (hph _ hp) _
  | accum _ => exact State.Inv.accum h (hph _ rfl) _
  | fmt => exact State.Inv.fmt h (hph _ rfl) _

theorem Effect.ports_eq {s t : State} {i : Instr} (he : Effect s i t) : t.ports = s.ports := by
  cases he <;> rfl

/-- The core's own operation in `s`, and that it goes on to `t`. -/
structure OwnStep (s : State) (i : Instr) (t : State) : Prop where
  fetch : s.fetch = .ok i
  own : i.ownPhase = some s.ph
  next : exec i s = .next t

theorem OwnStep.step_eq {s t : State} {i : Instr} (h : OwnStep s i t) (hq : s.Quiet) : step s = .next t := by
  rw [step_of_fetch s i h.fetch, State.consume_of_quiet s hq.1 hq.2, h.next]

theorem OwnStep.effect {s t : State} {i : Instr} (h : OwnStep s i t) : Effect s i t := exec_effect i s t h.next

theorem OwnStep.ph_eq {s t : State} {i : Instr} (h : OwnStep s i t) (p : Phase) (hp : i.ownPhase = some p) : s.ph = p :=
  Option.some.inj (h.own.symm.trans hp)

theorem OwnStep.quiet {s t : State} {i : Instr} (h : OwnStep s i t) (hq : s.Quiet) : t.Quiet := by
  unfold State.Quiet
  rwa [h.effect.ports_eq]

section
variable {s : State} (h : s.ControlInv) (hq : s.Quiet)
include h hq

/-- Outside `FRAME` and `ROUND` the own operation is the map's, and it goes on if it does so in this state. -/
theorem State.ControlInv.ownStep {t : State} {p : Phase} (i : Instr) (hp : s.ph = p)
    (hi : decodeControl p.code 0#2 = .ok i) (hnext : exec i s = .next t)
    (hf : p ≠ .frame ∧ p ≠ .round := by decide) : ∃ i t, OwnStep s i t := by
  subst hp
  exact ⟨i, t, fetch_own s hq.1 (by simp [hq.2]) h.reachable hf.1 hf.2 i hi, ownPhase_of_decodeControl _ _ i hi, hnext⟩

theorem State.ControlInv.ownStep_of_frameClass {t : State} {fc : BitVec 2} (i : Instr) (hp : s.ph = .frame)
    (hc : frameClass s.len.toNat s.bi.toNat = some fc) (hi : decodeControl Phase.frame.code fc = .ok i)
    (hnext : exec i s = .next t) : ∃ i t, OwnStep s i t :=
  ⟨i, t, fetch_frame s hq.1 hp h.reachable fc hc i hi, hp ▸ ownPhase_of_decodeControl _ _ i hi, hnext⟩

theorem State.ControlInv.ownStep_of_quarter {t : State} {q : BitVec 2} (i : Instr) (hp : s.ph = .round)
    (hc : quarter s.t.toNat = some q) (hi : decodeControl Phase.round.code q = .ok i)
    (hnext : exec i s = .next t) : ∃ i t, OwnStep s i t :=
  ⟨i, t, fetch_round s hq.1 hp h.reachable q hc i hi, hp ▸ ownPhase_of_decodeControl _ _ i hi, hnext⟩

/-- In `FRAME` one of the four classes applies, and its operation goes on. -/
theorem State.ControlInv.ownStep_frame (hp : s.ph = .frame) : ∃ i t, OwnStep s i t := by
  obtain ⟨hl, hnb⟩ := h.accepted (by simp [hp, Phase.resting]) (by simp [hp])
  have hbi := h.blockIndex (by simp [hp, Phase.onBlock])
  have hclass : s.bi.toNat < fullBlocks s.len.toNat ∨
      (s.bi.toNat = fullBlocks s.len.toNat ∧ tailLength s.len.toNat ≤ 55) ∨
      (s.bi.toNat = fullBlocks s.len.toNat ∧ 56 ≤ tailLength s.len.toNat) ∨
      (s.bi.toNat = fullBlocks s.len.toNat + 1 ∧ 56 ≤ tailLength s.len.toNat) := by
    unfold blockCount at hnb
    split at hnb <;> omega
  have hindexes : 64 * fullBlocks s.len.toNat + tailLength s.len.toNat = s.len.toNat := Nat.div_add_mod _ 64
  rcases hclass with hc | hc | hc | hc
  · exact h.ownStep_of_frameClass hq .frameFull hp (fc := 0) (by simp [frameClass, hc]) rfl
      (frameReading_next _ _ _ s hl (.inr (by omega)))
  · exact h.ownStep_of_frameClass hq .frameFinal hp (fc := 1) (by simp [frameClass, hc]) rfl
      ((if_pos hc).trans (frameReading_next _ _ _ s hl (.inr (by omega))))
  · have hfinal : ¬ tailLength s.len.toNat ≤ 55 := by omega
    exact h.ownStep_of_frameClass hq .frameFill hp (fc := 2) (by simp [frameClass, hc, hfinal]) rfl
      ((if_pos hc).trans (frameReading_next _ _ _ s hl (.inr (by omega))))
  · exact h.ownStep_of_frameClass hq .frameLen hp (fc := 3) (by simp [frameClass, hc]) rfl
      ((if_pos hc).trans (frameReading_next _ _ _ s hl (.inl rfl)))

/-- In `ROUND` the operation of the quarter goes on. -/
theorem State.ControlInv.ownStep_round (hp : s.ph = .round) : ∃ i t, OwnStep s i t := by
  have ht : s.t.toNat ≤ 79 := by simpa [State.indexInRange, hp] using h.index
  have hquarter : s.t.toNat / 20 = 0 ∨ s.t.toNat / 20 = 1 ∨ s.t.toNat / 20 = 2 ∨ s.t.toNat / 20 = 3 := by omega
  have hc : quarter s.t.toNat = some (BitVec.ofNat 2 (s.t.toNat / 20)) := if_pos (by omega)
  rcases hquarter with h20 | h20 | h20 | h20 <;> rw [h20] at hc
  · exact h.ownStep_of_quarter hq .roundCh hp hc rfl (roundStep_next _ _ _ s (by omega))
  · exact h.ownStep_of_quarter hq .roundPar1 hp hc rfl (roundStep_next _ _ _ s (by omega))
  · exact h.ownStep_of_quarter hq .roundMaj hp hc rfl (roundStep_next _ _ _ s (by omega))
  · exact h.ownStep_of_quarter hq .roundPar2 hp hc rfl (roundStep_next _ _ _ s (by omega))

theorem State.ControlInv.ownStep_chk (hp : s.ph = .chk) : ∃ i t, OwnStep s i t := by
  by_cases hl : s.lengthOverflows = true
  · exact h.ownStep hq .chk hp rfl (if_pos hl)
  · exact h.ownStep hq .chk hp rfl (if_neg hl)

/-- Without a host event the core's own operation is there, in its own phase, and goes on. -/
theorem State.ControlInv.exists_ownStep : ∃ i t, OwnStep s i t := by
  cases hp : s.ph with
  | frame => exact h.ownStep_frame hq hp
  | round => exact h.ownStep_round hq hp
  | chk => exact h.ownStep_chk hq hp
  | expand =>
    have ht : 16 ≤ s.t.toNat ∧ s.t.toNat ≤ 79 := by simpa [State.indexInRange, hp] using h.index
    exact h.ownStep hq .expand hp rfl (dif_pos ⟨ht.1, by omega⟩)
  | accum =>
    exact h.ownStep hq .accum hp rfl (if_pos (h.blockIndex (by simp [hp, Phase.onBlock])))
  | idle => exact h.ownStep hq .holdIdle hp rfl rfl
  | unpack => exact h.ownStep hq .unpack hp rfl rfl
  | load => exact h.ownStep hq .load hp rfl rfl
  | fmt => exact h.ownStep hq .fmt hp rfl rfl
  | done => exact h.ownStep hq .holdDone hp rfl rfl
  | error => exact h.ownStep hq .holdError hp rfl rfl

end

/-! ## What is still to be read, and in how many steps -/

/-- The message indexes that the rest of the transaction asks for: block `BI` is still to be read in `FRAME`, and is read
in the phases after it. -/
def State.readsLeft (s : State) : List Nat :=
  match s.ph with
  | .chk => if lengthLimit ≤ s.len.toNat then [] else List.range s.len.toNat
  | .frame => (List.range s.len.toNat).drop (64 * s.bi.toNat)
  | .unpack | .expand | .load | .round | .accum => (List.range s.len.toNat).drop (64 * (s.bi.toNat + 1))
  | .idle | .fmt | .done | .error => []

/-- The micro-operations that the rest of the transaction takes: 148 for each block and one FMT (45_transaction.md rule
R177). -/
def State.stepsLeft (s : State) : Nat :=
  match s.ph with
  | .chk => if lengthLimit ≤ s.len.toNat then 1 else 2 + 148 * blockCount s.len.toNat
  | .frame => 148 * (s.nb.toNat - s.bi.toNat) + 1
  | .unpack => 147 + 148 * (s.nb.toNat - s.bi.toNat - 1) + 1
  | .expand => 162 - s.t.toNat + 148 * (s.nb.toNat - s.bi.toNat - 1) + 1
  | .load => 82 + 148 * (s.nb.toNat - s.bi.toNat - 1) + 1
  | .round => 81 - s.t.toNat + 148 * (s.nb.toNat - s.bi.toNat - 1) + 1
  | .accum => 1 + 148 * (s.nb.toNat - s.bi.toNat - 1) + 1
  | .fmt => 1
  | .idle | .done | .error => 0

theorem readsLeft_of_resting (s : State) (h : s.ph.resting = true) : s.readsLeft = [] := by
  cases hp : s.ph with
  | idle | done | error => simp [State.readsLeft, hp]
  | _ => simp [hp, Phase.resting] at h

theorem stepsLeft_eq_zero_iff (s : State) : s.stepsLeft = 0 ↔ s.ph.resting = true := by
  cases hp : s.ph with
  | chk => by_cases hl : lengthLimit ≤ s.len.toNat <;> simp [State.stepsLeft, hp, hl, Phase.resting]
  | _ => simp [State.stepsLeft, hp, Phase.resting]

theorem len_le_blockCount (L : Nat) : L ≤ 64 * blockCount L := by
  unfold blockCount fullBlocks
  split <;> omega

/-- The indexes an operation asks for are those that come off what is still to be read. -/
theorem OwnStep.readsLeft_eq {s t : State} {i : Instr} (hstep : OwnStep s i t) (h : s.ControlInv) :
    s.readsLeft = messageReads i s ++ t.readsLeft := by
  have hown := hstep.own
  have hph := hstep.ph_eq
  have hnext := hstep.next
  cases hstep.effect with
  | reset => cases hown
  | start => cases hown
  | startIgnored => cases hown
  | hold i p hp hr =>
    have hframe : i.ownPhase ≠ some .frame := by
      rw [hp]
      rintro ⟨⟩
      cases hr
    rw [readsLeft_of_resting s (by rw [hph p hp, hr]), messageReads_eq_nil i s hframe]
    rfl
  | overflow hl => simp [State.readsLeft, messageReads, hph .chk rfl, hl]
  | accept hl => simp [State.readsLeft, messageReads, hph .chk rfl, Nat.not_le.2 hl]
  | frame i b hp hb =>
    rw [messageReads_of_frame i s _ hp hnext]
    simp [State.readsLeft, hph _ hp, Nat.mul_succ]
  | unpack => simp [State.readsLeft, messageReads, hph .unpack rfl]
  | expand ht => split <;> simp [State.readsLeft, messageReads, hph .expand rfl]
  | load => simp [State.readsLeft, messageReads, hph .load rfl]
  | round i ht hp =>
    rw [messageReads_eq_nil i s (by rw [hp]; simp)]
    split <;> simp [State.readsLeft, hph _ hp]
  | accum hb =>
    have hp := hph .accum rfl
    have hsucc := blockIndex_succ_toNat s.bi s.nb hb
    split
    · next hlast =>
      have hnb := (h.accepted (by simp [hp, Phase.resting]) (by simp [hp])).2
      have hall := len_le_blockCount s.len.toNat
      simpa [State.readsLeft, messageReads, hp, hlast, hnb] using hall
    · next hlast => simp only [State.readsLeft, messageReads, hp, hsucc, List.nil_append]
  | fmt => simp [State.readsLeft, messageReads, hph .fmt rfl]

/-- Each operation is one of the micro-operations left, and at rest none is left. -/
theorem OwnStep.stepsLeft_eq {s t : State} {i : Instr} (hstep : OwnStep s i t) (h : s.ControlInv) :
    t.stepsLeft = s.stepsLeft - 1 := by
  have hown := hstep.own
  have hph := hstep.ph_eq
  cases hstep.effect with
  | reset => cases hown
  | start => cases hown
  | startIgnored => cases hown
  | hold i p hp hr =>
    have hzero := (stepsLeft_eq_zero_iff s).2 (by rw [hph p hp, hr])
    omega
  | overflow hl => simp [State.stepsLeft, hph .chk rfl, hl]
  | accept hl => simp [State.stepsLeft, hph .chk rfl, Nat.not_le.2 hl, blockCount_toNat _ hl]; omega
  | frame i b hp hb =>
    have hbi := h.blockIndex (by simp [hph _ hp, Phase.onBlock])
    simp only [State.stepsLeft, hph _ hp, State.leaveFrame_ph, State.leaveFrame_nb, State.leaveFrame_bi]
    omega
  | unpack => simp [State.stepsLeft, hph .unpack rfl]; omega
  | expand ht =>
    have hsucc := index_succ_toNat s.t ht.2
    split <;> simp only [State.stepsLeft, hph .expand rfl, hsucc] <;> omega
  | load => simp [State.stepsLeft, hph .load rfl]; omega
  | round i ht hp =>
    have hsucc := index_succ_toNat s.t ht
    split <;> simp only [State.stepsLeft, hph _ hp, hsucc] <;> omega
  | accum hb =>
    have hsucc := blockIndex_succ_toNat s.bi s.nb hb
    split <;> simp only [State.stepsLeft, hph .accum rfl, hsucc] <;> omega
  | fmt => simp [State.stepsLeft, hph .fmt rfl]

theorem indexesRead_succ (n : Nat) (s t : State) (i : Instr) (hf : s.fetch = .ok i) (hstep : step s = .next t) :
    indexesRead (n + 1) s = messageReads i s ++ indexesRead n t := by
  simp [indexesRead, hf, hstep]

/-- Over any number of the core's own steps: what they read, and then what is left, is what was left before them. -/
theorem indexesRead_append_readsLeft (n : Nat) (s : State) (h : s.ControlInv) (hq : s.Quiet) :
    ∃ t : State, t.stepsLeft = s.stepsLeft - n ∧ s.readsLeft = indexesRead n s ++ t.readsLeft := by
  induction n generalizing s with
  | zero => exact ⟨s, rfl, rfl⟩
  | succ n ih =>
    obtain ⟨i, u, hu⟩ := h.exists_ownStep hq
    obtain ⟨t, hsteps, hreads⟩ := ih u (hu.effect.keeps_controlInv hu.ph_eq h) (hu.quiet hq)
    refine ⟨t, ?_, ?_⟩
    · rw [hsteps, hu.stepsLeft_eq h, Nat.sub_sub, Nat.add_comm]
    · rw [indexesRead_succ n s u i hu.fetch (hu.step_eq hq), hu.readsLeft_eq h, hreads, List.append_assoc]

/-- A run to rest has read all that was left. -/
theorem indexesRead_stepsLeft (s : State) (h : s.ControlInv) (hq : s.Quiet) :
    indexesRead s.stepsLeft s = s.readsLeft := by
  obtain ⟨t, hsteps, hreads⟩ := indexesRead_append_readsLeft s.stepsLeft s h hq
  rw [hreads, readsLeft_of_resting t ((stepsLeft_eq_zero_iff t).1 (by omega)), List.append_nil]

theorem indexesRead_eq_nil (n : Nat) (s : State) (h : s.ControlInv) (hq : s.Quiet) (hs : s.readsLeft = []) :
    indexesRead n s = [] := by
  obtain ⟨t, -, hreads⟩ := indexesRead_append_readsLeft n s h hq
  rw [hs] at hreads
  exact (List.append_eq_nil_iff.1 hreads.symm).1

/-! ## A transaction from its START -/

/-- The state in which CHK finds an issued command. -/
def State.commandAccepted (s : State) : State := s.consume.beginTransaction s.ports.len

theorem State.Commanded.fetch_start {s : State} (h : s.Commanded) : s.fetch = .ok (.start s.ports.len) := by
  obtain ⟨hrst, hstart, hrest, herr, ht⟩ := h
  have hw : s.operationWord = .ok (.cmd s.ports.command) := by
    simp [State.operationWord, hrst, unreachable_eq_none_of_resting s hrest herr ht, hstart, hrest]
  simp [State.fetch, hw, decode_command s.ports hstart]

theorem State.Commanded.resting {s : State} (h : s.Commanded) : s.ph.resting = true :=
  let ⟨_, _, hrest, _⟩ := h
  hrest

theorem State.Commanded.step_start {s : State} (h : s.Commanded) : step s = .next s.commandAccepted :=
  (step_of_fetch s _ h.fetch_start).trans (if_pos h.resting)

/-- START itself reads nothing. -/
theorem State.Commanded.indexesRead_succ {s : State} (h : s.Commanded) (n : Nat) :
    indexesRead (n + 1) s = indexesRead n s.commandAccepted :=
  Machine.indexesRead_succ n s _ _ h.fetch_start h.step_start

theorem State.commandAccepted_controlInv (s : State) : s.commandAccepted.ControlInv := .of_chk rfl rfl

theorem State.commandAccepted_quiet (s : State) : s.commandAccepted.Quiet := ⟨rfl, rfl⟩

theorem State.Commanded.indexesRead_accepted {s : State} (h : s.Commanded) (hl : s.ports.len.toNat < lengthLimit) :
    indexesRead (1 + (2 + 148 * blockCount s.ports.len.toNat)) s = List.range s.ports.len.toNat := by
  have hsteps : s.commandAccepted.stepsLeft = 2 + 148 * blockCount s.ports.len.toNat := if_neg (Nat.not_le.2 hl)
  have hreads : s.commandAccepted.readsLeft = List.range s.ports.len.toNat := if_neg (Nat.not_le.2 hl)
  rw [Nat.add_comm 1, h.indexesRead_succ, ← hsteps, ← hreads]
  exact indexesRead_stepsLeft _ s.commandAccepted_controlInv s.commandAccepted_quiet

theorem State.Commanded.indexesRead_refused {s : State} (h : s.Commanded) (hl : lengthLimit ≤ s.ports.len.toNat)
    (n : Nat) : indexesRead n s = [] := by
  cases n with
  | zero => rfl
  | succ n =>
    rw [h.indexesRead_succ]
    exact indexesRead_eq_nil n _ s.commandAccepted_controlInv s.commandAccepted_quiet (if_pos hl)

/-- Settles O58: the reads of a run by induction over its steps, those of an operation by its guard. -/
theorem transactionReadsEachByteOnce : Obligations.TransactionReadsEachByteOnce :=
  ⟨fun _ h hl => h.indexesRead_accepted hl, fun _ h hl n => h.indexesRead_refused hl n, lt_len_of_mem_messageReads,
    exec_rebind⟩

end Sys2Proof.Machine
end

section
/-! PROOFS of the statements of 30_encoding.md: the decoder and the encoder (rules R77, R83, R84), the control word and
the states without one (R80 to R84), the port codes (R75, R76, R78, R79), the padded message (R70, R71) and the operation
sequence of a transaction (R88). -/

namespace Sys2Proof.Machine

/-! ## Decoder and encoder -/

theorem decode_rst_eq_ok_iff (bit : BitVec 1) (i : Instr) : decode (.rst bit) = .ok i ↔ bit = 1#1 ∧ i = .reset := by
  by_cases hb : bit = 1#1
  · simp [decode, hb, eq_comm]
  · simp [decode, hb]

/-- The command word, by its two fields (rule R77). -/
theorem decode_cmd_append (b : BitVec 1) (len : BitVec 64) :
    decode (.cmd (b ++ len)) = if b = 1#1 then .ok (.start len) else .error .noCommand := by
  simp only [decode, BitVec.extractLsb'_append_eq_left, BitVec.extractLsb'_append_eq_right]

/-- A command word is its `start` bit followed by its `len` field. -/
theorem cmd_eq_append (bits : BitVec 65) : bits = bits.extractLsb' 64 1 ++ bits.extractLsb' 0 64 :=
  (BitVec.extractLsb'_append_extractLsb'_eq_extractLsb' (len₁ := 64) rfl |>.trans BitVec.extractLsb'_eq_self).symm

theorem decode_cmd_eq_ok_iff (bits : BitVec 65) (i : Instr) :
    decode (.cmd bits) = .ok i ↔ ∃ len, i = .start len ∧ bits = 1#1 ++ len := by
  constructor
  · intro h
    rw [cmd_eq_append bits, decode_cmd_append] at h
    split at h
    · next hb => cases h; exact ⟨_, rfl, hb ▸ cmd_eq_append bits⟩
    · cases h
  · rintro ⟨len, rfl, rfl⟩
    rw [decode_cmd_append, if_pos rfl]

theorem decodeControl_ne_start (ph : BitVec 4) (sub : BitVec 2) (len : BitVec 64) :
    decodeControl ph sub ≠ .ok (.start len) := by
  fun_cases decodeControl ph sub <;> simp

/-- The operation map, row by row over the 64 control words: a word selects an operation of the core when it has the
bits that the row reads, and it never selects an operation of the host (rule R83). -/
theorem decode_cw_eq_ok_iff (bits : BitVec 6) (i : Instr) :
    decode (.cw bits) = .ok i ↔ .cw (bits &&& i.mask) = encode i := by
  cases i with
  | start len => simp [decode, decodeControl_ne_start, encode]
  | _ => revert bits; decide

/-- A word selects an operation exactly when it has the bits that the operation's row reads. -/
theorem decode_eq_ok_iff (w : RawWord) (i : Instr) : decode w = .ok i ↔ w.under i = encode i := by
  cases w with
  | rst bit =>
    rw [decode_rst_eq_ok_iff]
    cases i <;> simp [RawWord.under, encode]
  | cmd bits =>
    rw [decode_cmd_eq_ok_iff]
    cases i <;> simp [RawWord.under, encode]
  | cw bits => exact decode_cw_eq_ok_iff bits i

theorem encode_under (i : Instr) : (encode i).under i = encode i := by
  cases i <;> rfl

theorem decode_encode (i : Instr) : decode (encode i) = .ok i :=
  (decode_eq_ok_iff _ i).2 (encode_under i)

/-- The check on a word and the decoder agree on which words select nothing. -/
theorem isOk_decode (w : RawWord) : (decode w).isOk = w.wellFormed := by
  cases w with
  | rst bit => revert bit; decide
  | cmd bits =>
    rw [cmd_eq_append bits, decode_cmd_append, RawWord.wellFormed, BitVec.getLsbD_append]
    rcases BitVec.eq_zero_or_eq_one (bits.extractLsb' 64 1) with hb | hb <;> rw [hb] <;> rfl
  | cw bits => revert bits; decide

theorem wellFormed_iff_exists_decode (w : RawWord) : w.wellFormed = true ↔ ∃ i, decode w = .ok i := by
  rw [← isOk_decode]
  cases decode w <;> simp [Except.isOk, Except.toBool]

/-- On canonical words the encoder undoes the decoder. -/
theorem map_encode_decode_of_canonical (w : RawWord) (h : w.canonical = true) : (decode w).map encode = .ok w := by
  cases w with
  | rst bit => revert bit; decide
  | cmd bits =>
    obtain ⟨i, hi⟩ := (wellFormed_iff_exists_decode (.cmd bits)).1 h
    obtain ⟨len, rfl, rfl⟩ := (decode_cmd_eq_ok_iff bits i).1 hi
    rw [hi]
    rfl
  | cw bits => revert bits; decide

/-- Settles O12: the rows of the map one kind of word at a time, and encoding is one of the words that a row reads. -/
theorem decodeAgreesWithEncode : Obligations.DecodeAgreesWithEncode := by
  refine ⟨decode_eq_ok_iff, fun i _ => decode_encode i, wellFormed_iff_exists_decode, fun w i hd hc => ?_⟩
  have hw := map_encode_decode_of_canonical w hc
  rw [hd] at hw
  exact Except.ok.inj hw

theorem decodeControl_reserved (ph : BitVec 4) (sub : BitVec 2) (h : 11 ≤ ph.toNat) :
    decodeControl ph sub = .error (.reservedPhase ph) := by
  unfold decodeControl
  split
  case h_12 => rfl
  all_goals omega

/-- Settles O13: the fall-through of each kind of word. -/
theorem reservedWordsAreRejected : Obligations.ReservedWordsAreRejected :=
  ⟨fun ph sub h => (decode_controlWord ph sub).trans (decodeControl_reserved ph sub h),
    fun len => decode_cmd_append 0#1 len, rfl⟩

/-- Settles O14: each word is closed, and the decoder computes. -/
theorem writtenWordsDecode : Obligations.WrittenWordsDecode :=
  ⟨rfl, rfl, rfl, rfl, rfl, rfl, rfl, rfl, rfl, rfl, rfl, rfl, rfl⟩

/-! ## Port codes -/

theorem status_code_iff (p : Phase) :
    (p.status.code = 0#2 ↔ p = .idle) ∧
    (p.status.code = 1#2 ↔ p ≠ .idle ∧ p ≠ .done ∧ p ≠ .error) ∧
    (p.status.code = 2#2 ↔ p = .done) ∧
    (p.status.code = 3#2 ↔ p = .error) := by
  cases p <;> decide

theorem errPort_iff (s : State) : (s.errPort = 1#1 ↔ s.err = true) ∧ (s.errPort = 0#1 ↔ s.err = false) := by
  unfold State.errPort
  cases s.err <;> decide

/-- Settles O59: the two ports are tables over `PH` and over `ERR`. -/
theorem statusCodesFollowPhase : Obligations.StatusCodesFollowPhase := fun s =>
  let ⟨hidle, hbusy, hdone, herror⟩ := status_code_iff s.ph
  ⟨hidle, hbusy, hdone, herror, errPort_iff s⟩

/-! ## The four kinds of block -/

/-- A block of the message is full, or holds the tail with or without the length field, or holds only the length field. -/
theorem lt_blockCount_iff (L j : Nat) : j < blockCount L ↔
    j < fullBlocks L ∨ (j = fullBlocks L ∧ tailLength L ≤ 55) ∨ (j = fullBlocks L ∧ 56 ≤ tailLength L) ∨
      (j = fullBlocks L + 1 ∧ 56 ≤ tailLength L) := by
  unfold blockCount
  split <;> omega

/-- The frame class, read backwards (rule R81). -/
theorem frameClass_eq_some (L j : Nat) (fc : BitVec 2) (h : frameClass L j = some fc) :
    (fc.toNat = 0 ∧ j < fullBlocks L) ∨ (fc.toNat = 1 ∧ j = fullBlocks L ∧ tailLength L ≤ 55) ∨
      (fc.toNat = 2 ∧ j = fullBlocks L ∧ 56 ≤ tailLength L) ∨
      (fc.toNat = 3 ∧ j = fullBlocks L + 1 ∧ 56 ≤ tailLength L) := by
  unfold frameClass at h
  split_ifs at h with h0 h1 h2 h3 <;> cases h
  · exact .inl ⟨rfl, h0⟩
  · exact .inr (.inl ⟨rfl, h1⟩)
  · exact .inr (.inr (.inl ⟨rfl, h2⟩))
  · exact .inr (.inr (.inr ⟨rfl, h3⟩))

theorem exists_frameClass (L j : Nat) (h : j < blockCount L) : ∃ fc, frameClass L j = some fc := by
  have hkind := (lt_blockCount_iff L j).1 h
  unfold frameClass
  split_ifs
  case neg => omega
  all_goals exact ⟨_, rfl⟩

/-! ## The control word -/

theorem code_append_sub (ph : BitVec 4) (sub : BitVec 2) :
    (ph ++ sub).toNat / 4 = ph.toNat ∧ (ph ++ sub).toNat % 4 = sub.toNat := by
  revert ph sub
  decide

theorem quarter_toNat (t : Nat) (h : t < 80) : (BitVec.ofNat 2 (t / 20)).toNat = t / 20 := by
  rw [BitVec.toNat_ofNat]
  omega

/-- In a state that keeps the invariants the control word exists, with the `SUB` of its phase (rules R81 to R83). -/
theorem State.Inv.exists_controlWord {s : State} (h : s.Inv) :
    ∃ sub : BitVec 2, s.controlWord = .ok (s.ph.code ++ sub) ∧
      (s.ph = .frame → frameClass s.len.toNat s.bi.toNat = some sub) ∧
      (s.ph = .round → sub.toNat = s.t.toNat / 20) ∧
      (s.ph ≠ .frame → s.ph ≠ .round → sub = 0#2) := by
  cases hp : s.ph with
  | frame =>
    have hnb := (h.accepted (by simp [hp, Phase.resting]) (by simp [hp])).2
    have hbi := h.blockIndex (by simp [hp, Phase.onBlock])
    obtain ⟨fc, hfc⟩ := exists_frameClass s.len.toNat s.bi.toNat (hnb ▸ hbi)
    exact ⟨fc, by simp [State.controlWord, hp, hfc], by simp [hfc], by simp, by simp⟩
  | round =>
    have ht : s.t.toNat ≤ 79 := by simpa [State.indexInRange, hp] using h.index
    have hq : quarter s.t.toNat = some (BitVec.ofNat 2 (s.t.toNat / 20)) := if_pos (by omega)
    exact ⟨_, by simp [State.controlWord, hp, hq], by simp, fun _ => quarter_toNat _ (by omega), by simp⟩
  | _ => exact ⟨0#2, by simp [State.controlWord, hp], by simp, by simp, by simp⟩

/-- Settles O15: the two fields of the control word, and the frame class read backwards. -/
theorem controlWordIsPhaseAndSub : Obligations.ControlWordIsPhaseAndSub := by
  intro s h
  obtain ⟨sub, hw, hframe, hround, hother⟩ := h.exists_controlWord
  obtain ⟨hph, hsub⟩ := code_append_sub s.ph.code sub
  refine ⟨_, hw, hph, fun hp => ?_, fun hp => hsub.trans (hround hp), fun hf hr => ?_⟩
  · have hclass := frameClass_eq_some _ _ _ (hframe hp)
    unfold fullBlocks tailLength at hclass
    omega
  · rw [hsub, hother hf hr]
    rfl

/-! ## Operations outside their range -/

theorem roundStep_refused_iff (lo : Nat) (f : Word → Word → Word → Word) (k : Word) (s : State) :
    roundStep lo f k s = .refused .indexT ↔ ¬(lo ≤ s.t.toNat ∧ s.t.toNat < lo + 20 ∧ s.t.toNat < 80) := by
  refine ⟨fun h hg => ?_, roundStep_refused lo f k s⟩
  rw [roundStep_next lo f k s hg] at h
  cases h

theorem execExpand_refused_iff (s : State) :
    execExpand s = .refused .indexT ↔ ¬(16 ≤ s.t.toNat ∧ s.t.toNat < 80) := by
  unfold execExpand
  split
  · next ht => simp [ht]
  · next ht => simp only [ht, not_false_eq_true]

/-- An operation that refuses outside its guard, and never so inside it, refuses exactly outside its guard. -/
theorem guarded_eq_refused_iff {c : Prop} [Decidable c] {o : Outcome} {r : Refusal} (ho : o ≠ .refused r) :
    (if c then o else .refused r) = .refused r ↔ ¬c := by
  split
  · next hc => simp [ho, hc]
  · next hc => simp [hc]

theorem execAccum_refused_iff (s : State) : execAccum s = .refused .blockIndex ↔ s.nb.toNat ≤ s.bi.toNat := by
  unfold execAccum
  rw [guarded_eq_refused_iff (by simp), Nat.not_lt]

theorem frameReading_ne_frameClass (base n : Nat) (b : Block) (s : State) :
    frameReading base n b s ≠ .refused .frameClass := by
  rcases frameReading_cases base n b s with ⟨-, he⟩ | ⟨-, -, he⟩ | ⟨-, -, -, he⟩ <;> simp [he]

theorem frameReading_refused_iff (base n : Nat) (b : Block) (s : State) :
    frameReading base n b s = .refused .lengthInBusy ↔ lengthLimit ≤ s.len.toNat := by
  rcases frameReading_cases base n b s with ⟨hl, he⟩ | ⟨hl, -, he⟩ | ⟨hl, -, -, he⟩ <;> simp [he, hl]

theorem frameReading_fault_iff (base n : Nat) (b : Block) (s : State) :
    frameReading base n b s = .fault .messageIndexOutside ↔
      s.len.toNat < lengthLimit ∧ n ≠ 0 ∧ s.len.toNat < base + n := by
  rcases frameReading_cases base n b s with ⟨hl, he⟩ | ⟨-, hi, he⟩ | ⟨hl, hn, hi, he⟩
  · simp [he, hl]
  · simp only [he, reduceCtorEq, false_iff]
    omega
  · simp [he, hl, hn, hi]

/-- Settles O34: the guard of each shared shape of operation, at the bounds of each operation. -/
theorem operationsStopOutsideTheirRange : Obligations.OperationsStopOutsideTheirRange := by
  intro s
  refine ⟨?expand, ?ch, ?par1, ?maj, ?par2, execAccum_refused_iff s, frameReading_refused_iff _ 64 _ s,
    ?outside, ?final, ?fill, ?len⟩
  case expand => exact (execExpand_refused_iff s).trans (by omega)
  case ch => exact (roundStep_refused_iff 0 fCh k0 s).trans (by omega)
  case par1 => exact (roundStep_refused_iff 20 fPar k1 s).trans (by omega)
  case maj => exact (roundStep_refused_iff 40 fMaj k2 s).trans (by omega)
  case par2 => exact (roundStep_refused_iff 60 fPar k3 s).trans (by omega)
  case outside => exact (frameReading_fault_iff _ 64 _ s).trans (by unfold lengthLimit; omega)
  case final => exact guarded_eq_refused_iff (frameReading_ne_frameClass _ _ _ s)
  case fill => exact guarded_eq_refused_iff (frameReading_ne_frameClass _ _ _ s)
  case len => exact guarded_eq_refused_iff (frameReading_ne_frameClass _ _ _ s)

/-! ## States that are never reached -/

section
variable {s : State} (hr : s.ports.rst = false)
include hr

theorem step_of_unreachable {r : Refusal} (hu : s.unreachable = some r) : step s = .refused r := by
  simp [step, State.fetch, State.operationWord, hr, hu]

theorem step_of_expand_outside (hu : s.unreachable = none) (hp : s.ph = .expand)
    (ht : ¬(16 ≤ s.t.toNat ∧ s.t.toNat < 80)) : step s = .refused .indexT := by
  have hfetch : s.fetch = .ok .expand :=
    fetch_own s hr (by simp [hp, Phase.resting]) hu (by simp [hp]) (by simp [hp]) _ (by rw [hp]; rfl)
  exact (step_of_fetch s _ hfetch).trans ((execExpand_refused_iff s.consume).2 ht)

theorem step_of_round_outside (hu : s.unreachable = none) (hp : s.ph = .round) (ht : 80 ≤ s.t.toNat) :
    step s = .refused .indexT := by
  have hq : quarter s.t.toNat = none := if_neg (by omega)
  simp [step, State.fetch, State.operationWord, hr, hu, hp, Phase.resting, State.controlWord, hq]

end

/-- Settles O45: what the refusal before the operation lets pass is an index that EXPAND refuses or that has no
quarter. -/
theorem unreachableStatesAreRefused : Obligations.UnreachableStatesAreRefused := by
  intro s hr hbad
  cases hu : s.unreachable with
  | some r => exact ⟨r, step_of_unreachable hr hu⟩
  | none =>
    obtain ⟨herr, hlen, hblock, hlive⟩ := (State.unreachable_eq_none_iff s).1 hu
    rcases hbad with ⟨hp, ht⟩ | ⟨hp | hp, ht⟩ | ⟨hp, ht⟩ | ⟨hp, hbi, ht⟩ | ⟨hp, hb⟩ | ⟨hp, hc, hl⟩ | herr'
    · exact ⟨_, step_of_expand_outside hr hu hp (by omega)⟩
    · exact ⟨_, step_of_expand_outside hr hu hp (by omega)⟩
    · exact ⟨_, step_of_round_outside hr hu hp ht⟩
    · have ht' := hlive (by rcases hp with hp | hp | hp | hp <;> simp [State.indexLive, hp])
      omega
    · have hbi' : s.bi ≠ 0#56 := by
        intro h0
        simp [h0] at hbi
      have ht' := hlive (by rcases hp with hp | hp <;> simp [State.indexLive, hp, hbi'])
      omega
    · have hb' := hblock hp
      omega
    · exact absurd hl (Nat.not_le.2 (hlen hp hc))
    · exact absurd herr herr'

/-! ## The padded message -/

/-- The padding fills the last block (rule R71). -/
theorem padded_length (L : Nat) : L + 1 + zeroBytes L + 8 = 64 * blockCount L := by
  unfold zeroBytes blockCount tailLength fullBlocks
  split <;> omega

theorem zeroBytes_le (L : Nat) : zeroBytes L ≤ 63 := by
  unfold zeroBytes
  have htail : tailLength L < 64 := Nat.mod_lt _ (by decide)
  split <;> omega

/-- `PADDED` with the end of its zeros counted in blocks. -/
theorem paddedByte_eq (m : Memory) (L p : Nat) :
    paddedByte m L p =
      if p < L then Memory.read m p
      else if p = L then 0x80#8
      else if p + 8 < 64 * blockCount L then 0x00#8
      else be64byte (bitLength L) (p + 8 - 64 * blockCount L) := by
  have hlen := padded_length L
  have hzero : p < L + 1 + zeroBytes L ↔ p + 8 < 64 * blockCount L := by omega
  have hfield : p - (L + 1 + zeroBytes L) = p + 8 - 64 * blockCount L := by omega
  simp only [paddedByte, hzero, hfield]

/-- A byte of the block that follows the full ones, and the end of the message. -/
theorem fullBlocks_add_cmp (L k : Nat) :
    (64 * fullBlocks L + k < L ↔ k < tailLength L) ∧ (64 * fullBlocks L + k = L ↔ k = tailLength L) := by
  unfold fullBlocks tailLength
  omega

section
variable (m : Memory) (L j k : Nat) (hk : k < 64)
include hk

theorem fullBlock_getElem_eq_paddedByte (hj : j < fullBlocks L) :
    (fullBlock m j)[k] = paddedByte m L (64 * j + k) := by
  have hp : 64 * j + k < L := by unfold fullBlocks at hj; omega
  simp [fullBlock, paddedByte, hp]

theorem finalBlock_getElem_eq_paddedByte (hj : j = fullBlocks L ∧ tailLength L ≤ 55) :
    (finalBlock m L)[k] = paddedByte m L (64 * j + k) := by
  obtain ⟨rfl, hr⟩ := hj
  obtain ⟨hlt, heq⟩ := fullBlocks_add_cmp L k
  have hcount : blockCount L = fullBlocks L + 1 := by simp [blockCount, hr]
  have hzero : 64 * fullBlocks L + k + 8 < 64 * (fullBlocks L + 1) ↔ k < 56 := by omega
  have hfield : 64 * fullBlocks L + k + 8 - 64 * (fullBlocks L + 1) = k - 56 := by omega
  simp only [finalBlock, Vector.getElem_ofFn, paddedByte_eq, hcount, hlt, heq, hzero, hfield]

theorem fillBlock_getElem_eq_paddedByte (hj : j = fullBlocks L ∧ 56 ≤ tailLength L) :
    (fillBlock m L)[k] = paddedByte m L (64 * j + k) := by
  obtain ⟨rfl, hr⟩ := hj
  obtain ⟨hlt, heq⟩ := fullBlocks_add_cmp L k
  have hcount : blockCount L = fullBlocks L + 2 := by simp [blockCount, show ¬ tailLength L ≤ 55 by omega]
  have hzero : 64 * fullBlocks L + k + 8 < 64 * (fullBlocks L + 2) := by omega
  simp only [fillBlock, Vector.getElem_ofFn, paddedByte_eq, hcount, hlt, heq, hzero, if_true]

theorem lengthBlock_getElem_eq_paddedByte (hj : j = fullBlocks L + 1 ∧ 56 ≤ tailLength L) :
    (lengthBlock L)[k] = paddedByte m L (64 * j + k) := by
  have hcount : blockCount L = j + 1 := by simp [blockCount, hj, show ¬ tailLength L ≤ 55 by omega]
  have hpast : L < 64 * j + k := by unfold fullBlocks at hj; omega
  have hzero : 64 * j + k + 8 < 64 * (j + 1) ↔ k < 56 := by omega
  have hfield : 64 * j + k + 8 - 64 * (j + 1) = k - 56 := by omega
  simp only [lengthBlock, Vector.getElem_ofFn, paddedByte_eq, hcount, hzero, hfield, Nat.not_lt.2 hpast.le, hpast.ne',
    if_false]

end

theorem block_eq_paddedBytes (m : Memory) (L j : Nat) (hL : L < lengthLimit) (hj : j < blockCount L) :
    ∃ b : Block, block m L j = some b ∧ ∀ (k : Nat) (h : k < 64), b[k] = paddedByte m L (64 * j + k) := by
  rcases (lt_blockCount_iff L j).1 hj with hc | hc | hc | hc
  · exact ⟨_, block_of_full m L j hL hc, fun k hk => fullBlock_getElem_eq_paddedByte m L j k hk hc⟩
  · exact ⟨_, block_of_final m L j hL hc, fun k hk => finalBlock_getElem_eq_paddedByte m L j k hk hc⟩
  · exact ⟨_, block_of_fill m L j hL hc, fun k hk => fillBlock_getElem_eq_paddedByte m L j k hk hc⟩
  · exact ⟨_, block_of_length m L j hL hc, fun k hk => lengthBlock_getElem_eq_paddedByte m L j k hk hc⟩

theorem block_eq_none (m : Memory) (L j : Nat) (hj : blockCount L ≤ j) : block m L j = none := by
  have hkind := mt (lt_blockCount_iff L j).2 (Nat.not_lt.2 hj)
  simp only [not_or] at hkind
  simp [block, hkind]

/-- Settles O6: each of the four kinds of block is its slice of the layout table. -/
theorem blocksArePaddedMessage : Obligations.BlocksArePaddedMessage := fun m L hL =>
  ⟨padded_length L, zeroBytes_le L, fun j hj => block_eq_paddedBytes m L j hL hj, fun j hj => block_eq_none m L j hj⟩

/-! ## The result string -/

/-- Nibble `n` is the digit of weight `16^(7-n)` (rule R75). -/
theorem nibble_toNat (x : Word) (n : Nat) (hn : n < 8) : (nibble x n).toNat = x.toNat / 16 ^ (7 - n) % 16 := by
  have hshift : 2 ^ (28 - 4 * n) = 16 ^ (7 - n) := by
    rw [show 28 - 4 * n = 4 * (7 - n) by omega, Nat.pow_mul]
  rw [nibble, BitVec.extractLsb'_toNat, Nat.shiftRight_eq_div_pow, hshift]

theorem hexcode_toNat (v : BitVec 4) :
    (hexcode v).toNat = if v.toNat ≤ 9 then 0x30 + v.toNat else 0x37 + v.toNat := by
  revert v
  decide

theorem hexcode_range (v : BitVec 4) :
    (0x30 ≤ (hexcode v).toNat ∧ (hexcode v).toNat ≤ 0x39) ∨ (0x41 ≤ (hexcode v).toNat ∧ (hexcode v).toNat ≤ 0x46) := by
  have hv := v.isLt
  rw [hexcode_toNat]
  split <;> omega

theorem hexcode_injective : Function.Injective hexcode := by
  intro u v h
  have hu := u.isLt
  have hv := v.isLt
  have hcode := congrArg BitVec.toNat h
  rw [hexcode_toNat, hexcode_toNat] at hcode
  apply BitVec.eq_of_toNat_eq
  split at hcode <;> split at hcode <;> omega

/-- Bit `i` of a word is bit `i mod 4` of its nibble `7 - i div 4`. -/
theorem getLsbD_nibble (x : Word) (i : Nat) (hi : i < 32) : (nibble x (7 - i / 4)).getLsbD (i % 4) = x.getLsbD i := by
  have hindex : 28 - 4 * (7 - i / 4) + i % 4 = i := by omega
  rw [nibble, BitVec.getLsbD_extractLsb', hindex]
  simp [Nat.mod_lt]

theorem word_eq_of_nibbles (x y : Word) (h : ∀ n < 8, nibble x n = nibble y n) : x = y := by
  apply BitVec.eq_of_getLsbD_eq
  intro i hi
  rw [← getLsbD_nibble x i hi, ← getLsbD_nibble y i hi, h _ (by omega)]

theorem format_getElem (h : HRegs) (k : Fin 5) (n : Nat) (hn : n < 8) :
    (format h)[8 * k.val + n] = hexcode (nibble (h.get k) n) := by
  have hdiv : (8 * k.val + n) / 8 = k.val := by omega
  have hmod : (8 * k.val + n) % 8 = n := by omega
  simp only [format, Vector.getElem_ofFn, hdiv, hmod]

theorem HRegs.eq_of_get (h h' : HRegs) (heq : ∀ k, h.get k = h'.get k) : h = h' := by
  obtain ⟨a, b, c, d, e⟩ := h
  obtain ⟨a', b', c', d', e'⟩ := h'
  obtain rfl : a = a' := heq 0
  obtain rfl : b = b' := heq 1
  obtain rfl : c = c' := heq 2
  obtain rfl : d = d' := heq 3
  obtain rfl : e = e' := heq 4
  rfl

theorem format_injective : Function.Injective format := by
  intro h h' heq
  refine HRegs.eq_of_get h h' fun k => word_eq_of_nibbles _ _ fun n hn => hexcode_injective ?_
  rw [← format_getElem h k n hn, ← format_getElem h' k n hn]
  simp only [heq]

/-- Settles O9: character by character, and no two nibbles have one code. -/
theorem formatIsInjectiveUppercaseHex : Obligations.FormatIsInjectiveUppercaseHex := by
  refine ⟨fun h k n hn => ?_, fun h i hi => ?_, fun h h' heq => format_injective heq⟩
  · rw [format_getElem h k n hn, hexcode_toNat, nibble_toNat _ n hn]
  · simpa [format] using hexcode_range _

/-! ## The operations that are still to be performed -/

/-- BLOCK `j` to BLOCK `N - 1`, and FMT: the end of HASH from a block on (rule R88). -/
def pseudoBlocksFrom (L j : Nat) : List Instr :=
  ((List.range (blockCount L)).drop j).flatMap (pseudoBlock L) ++ [.fmt]

/-- The rounds of COMPRESS from round `t` on (rules R82, R88). -/
def roundsFrom (t : Nat) : List Instr := ((List.range 80).drop t).map roundOperation

/-- What follows the rounds of block `BI`. -/
def State.afterRounds (s : State) : List Instr := .accum :: pseudoBlocksFrom s.len.toNat (s.bi.toNat + 1)

/-- The part of HASH that the rest of the transaction performs. -/
def State.operationsLeft (s : State) : List Instr :=
  match s.ph with
  | .chk => .chk :: if lengthLimit ≤ s.len.toNat then [] else pseudoBlocksFrom s.len.toNat 0
  | .frame => pseudoBlocksFrom s.len.toNat s.bi.toNat
  | .unpack => pseudoSchedule ++ pseudoCompress ++ s.afterRounds
  | .expand => List.replicate (80 - s.t.toNat) .expand ++ pseudoCompress ++ s.afterRounds
  | .load => pseudoCompress ++ s.afterRounds
  | .round => roundsFrom s.t.toNat ++ s.afterRounds
  | .accum => s.afterRounds
  | .fmt => [.fmt]
  | .idle | .done | .error => []

theorem pseudoBlocksFrom_of_lt (L j : Nat) (h : j < blockCount L) :
    pseudoBlocksFrom L j = pseudoBlock L j ++ pseudoBlocksFrom L (j + 1) := by
  unfold pseudoBlocksFrom
  rw [List.drop_eq_getElem_cons (by simpa using h), List.getElem_range, List.flatMap_cons, List.append_assoc]

theorem pseudoBlocksFrom_blockCount (L : Nat) : pseudoBlocksFrom L (blockCount L) = [.fmt] := by
  rw [pseudoBlocksFrom, List.drop_of_length_le (by simp), List.flatMap_nil, List.nil_append]

theorem roundsFrom_of_lt (t : Nat) (h : t < 80) : roundsFrom t = roundOperation t :: roundsFrom (t + 1) := by
  unfold roundsFrom
  rw [List.drop_eq_getElem_cons (by simpa using h), List.getElem_range, List.map_cons]

/-- The four quarters of COMPRESS are the eighty rounds, each with the operation of its index. -/
theorem pseudoCompress_eq : pseudoCompress = .load :: roundsFrom 0 := by decide

/-- A FRAME.* operation that goes on is the PAD of its block (rule R81). -/
theorem pseudoPad_of_frame (i : Instr) (s t : State) (hi : i.ownPhase = some .frame) (h : exec i s = .next t) :
    pseudoPad s.len.toNat s.bi.toNat = [i] := by
  cases i <;> cases hi
  case frameFull =>
    obtain ⟨-, hlen, -⟩ := frameReading_eq_next _ _ _ s t h
    have hfull : s.bi.toNat < fullBlocks s.len.toNat := by unfold fullBlocks; omega
    simp [pseudoPad, frameClass, hfull]
  case frameFinal =>
    obtain ⟨hc, -⟩ := guarded_eq_next h
    simp [pseudoPad, frameClass, hc]
  case frameFill =>
    obtain ⟨hc, -⟩ := guarded_eq_next h
    simp [pseudoPad, frameClass, hc, show ¬ tailLength s.len.toNat ≤ 55 by omega]
  case frameLen =>
    obtain ⟨hc, -⟩ := guarded_eq_next h
    simp [pseudoPad, frameClass, hc]

/-- A round that goes on is in its quarter. -/
theorem roundStep_eq_next (lo : Nat) (f : Word → Word → Word → Word) (k : Word) (s t : State)
    (h : roundStep lo f k s = .next t) : lo ≤ s.t.toNat ∧ s.t.toNat < lo + 20 := by
  by_contra hg
  rw [roundStep_refused lo f k s (by omega)] at h
  cases h

/-- A ROUND.* operation that goes on is the one of its quarter (rule R82). -/
theorem eq_roundOperation (i : Instr) (s t : State) (hi : i.ownPhase = some .round) (h : exec i s = .next t) :
    i = roundOperation s.t.toNat := by
  unfold roundOperation
  cases i <;> cases hi
  case roundCh =>
    obtain ⟨hlo, hhi⟩ := roundStep_eq_next _ _ _ s t h
    rw [if_pos (by omega)]
  case roundPar1 =>
    obtain ⟨hlo, hhi⟩ := roundStep_eq_next _ _ _ s t h
    rw [if_neg (by omega), if_pos (by omega)]
  case roundMaj =>
    obtain ⟨hlo, hhi⟩ := roundStep_eq_next _ _ _ s t h
    rw [if_neg (by omega), if_neg (by omega), if_pos (by omega)]
  case roundPar2 =>
    obtain ⟨hlo, hhi⟩ := roundStep_eq_next _ _ _ s t h
    rw [if_neg (by omega), if_neg (by omega), if_neg (by omega)]

/-- In a busy phase the operation performed is the first of those left. -/
theorem OwnStep.operationsLeft_eq {s t : State} {i : Instr} (hstep : OwnStep s i t) (h : s.ControlInv)
    (hbusy : s.ph.resting = false) : s.operationsLeft = i :: t.operationsLeft := by
  have hown := hstep.own
  have hph := hstep.ph_eq
  have hnext := hstep.next
  cases hstep.effect with
  | reset => cases hown
  | start => cases hown
  | startIgnored => cases hown
  | hold i p hp hr =>
    rw [hph p hp, hr] at hbusy
    cases hbusy
  | overflow hl => simp [State.operationsLeft, hph .chk rfl, hl]
  | accept hl => simp [State.operationsLeft, hph .chk rfl, Nat.not_le.2 hl]
  | frame i b hp hb =>
    have hpad := pseudoPad_of_frame i s _ hp hnext
    have hnb := (h.accepted hbusy (by simp [hph _ hp])).2
    have hbi := h.blockIndex (by simp [hph _ hp, Phase.onBlock])
    have hblock := pseudoBlocksFrom_of_lt s.len.toNat s.bi.toNat (hnb ▸ hbi)
    simp [State.operationsLeft, hph _ hp, hblock, pseudoBlock, hpad, State.afterRounds]
  | unpack => simp [State.operationsLeft, hph .unpack rfl, pseudoSchedule, State.afterRounds]
  | expand ht =>
    have hsucc := index_succ_toNat s.t ht.2
    have hleft : 80 - s.t.toNat = 80 - (s.t.toNat + 1) + 1 := by omega
    split
    · next hlast => simp [State.operationsLeft, hph .expand rfl, hleft, hlast, State.afterRounds]
    · simp only [State.operationsLeft, hph .expand rfl, hleft, hsucc, List.replicate_succ, State.afterRounds,
        List.cons_append]
  | load => simp [State.operationsLeft, hph .load rfl, pseudoCompress_eq, State.afterRounds]
  | round i ht hp =>
    have hsucc := index_succ_toNat s.t ht
    have hrounds := roundsFrom_of_lt s.t.toNat ht
    rw [← eq_roundOperation i s _ hp hnext] at hrounds
    split
    · next hlast =>
      have hnone : roundsFrom 80 = [] := rfl
      simp [State.operationsLeft, hph _ hp, hrounds, hlast, hnone, State.afterRounds]
    · simp only [State.operationsLeft, hph _ hp, hrounds, hsucc, State.afterRounds, List.cons_append]
  | accum hb =>
    have hp := hph .accum rfl
    have hsucc := blockIndex_succ_toNat s.bi s.nb hb
    split
    · next hlast =>
      have hnb := (h.accepted hbusy (by simp [hp])).2
      simp [State.operationsLeft, hp, State.afterRounds, hlast, hnb, pseudoBlocksFrom_blockCount]
    · simp only [State.operationsLeft, hp, State.afterRounds, hsucc]
  | fmt => simp [State.operationsLeft, hph .fmt rfl]

theorem operationsLeft_of_resting (s : State) (h : s.ph.resting = true) : s.operationsLeft = [] := by
  cases hp : s.ph with
  | idle | done | error => simp [State.operationsLeft, hp]
  | _ => simp [hp, Phase.resting] at h

/-! ## The trace of a transaction -/

theorem trace_succ (n : Nat) (s t : State) (i : Instr) (hf : s.fetch = .ok i) (hstep : step s = .next t) :
    trace (n + 1) s = i :: trace n t := by
  simp [trace, hf, hstep]

/-- The core performs what is left of the transaction, in order. -/
theorem trace_operationsLeft (l : List Instr) (s : State) (h : s.ControlInv) (hq : s.Quiet)
    (hl : s.operationsLeft = l) : trace l.length s = l := by
  induction l generalizing s with
  | nil => rfl
  | cons i l ih =>
    have hbusy : s.ph.resting = false := by
      by_contra hr
      rw [operationsLeft_of_resting s (by simpa using hr)] at hl
      cases hl
    obtain ⟨j, t, hstep⟩ := h.exists_ownStep hq
    obtain ⟨rfl, ht⟩ := List.cons.inj (hl.symm.trans (hstep.operationsLeft_eq h hbusy))
    rw [List.length_cons, trace_succ _ s t _ hstep.fetch (hstep.step_eq hq),
      ih t (hstep.effect.keeps_controlInv hstep.ph_eq h) (hstep.quiet hq) ht.symm]

/-- HASH is START and what is left after it. -/
theorem pseudoHash_eq (s : State) : pseudoHash s.ports.len = .start s.ports.len :: s.commandAccepted.operationsLeft := rfl

theorem State.Commanded.trace_pseudoHash {s : State} (h : s.Commanded) :
    trace (pseudoHash s.ports.len).length s = pseudoHash s.ports.len := by
  rw [pseudoHash_eq, List.length_cons, trace_succ _ s _ _ h.fetch_start h.step_start,
    trace_operationsLeft _ _ s.commandAccepted_controlInv s.commandAccepted_quiet rfl]

/-! ## The length of HASH -/

theorem pseudoPad_length (L j : Nat) (h : j < blockCount L) : (pseudoPad L j).length = 1 := by
  obtain ⟨fc, hfc⟩ := exists_frameClass L j h
  simp only [pseudoPad, hfc]
  split <;> rfl

theorem pseudoBlock_length (L j : Nat) (h : j < blockCount L) : (pseudoBlock L j).length = 148 := by
  simp [pseudoBlock, pseudoPad_length L j h, pseudoSchedule, pseudoCompress]

theorem flatMap_pseudoBlock_length (L : Nat) :
    ((List.range (blockCount L)).flatMap (pseudoBlock L)).length = 148 * blockCount L := by
  have hconst : ∀ j ∈ List.range (blockCount L), (pseudoBlock L j).length = 148 := fun j hj =>
    pseudoBlock_length L j (List.mem_range.1 hj)
  rw [List.length_flatMap, List.map_congr_left hconst]
  simp [Nat.mul_comm]

theorem pseudoHash_length (len : BitVec 64) :
    (pseudoHash len).length =
      if lengthLimit ≤ len.toNat then 2 else 1 + (2 + 148 * blockCount len.toNat) := by
  unfold pseudoHash
  split
  · rfl
  · simp only [List.length_cons, List.length_append, flatMap_pseudoBlock_length, List.length_nil]
    omega

/-- Settles O57: by induction over the operations that are left. -/
theorem transactionPerformsHashSequence : Obligations.TransactionPerformsHashSequence := fun s h =>
  ⟨h.trace_pseudoHash, pseudoHash_length s.ports.len⟩

end Sys2Proof.Machine
end

section
/-! PROOFS of the statements of 40_padder.md: the number of blocks (rule R101), the overflow test of CHK and the only raise
of the error (rules R103, R109), and the block that each FRAME.* operation leaves (rules R104 to R107). -/

namespace Sys2Proof.Machine

/-! ## The number of blocks (rule R101) -/

theorem blockCount_eq_ceil (L : Nat) : blockCount L = (L + 9 + 63) / 64 := by
  unfold blockCount tailLength fullBlocks
  split <;> omega

theorem blockCount_le (L : Nat) (h : L < 2 ^ 61) : blockCount L ≤ 2 ^ 55 + 1 := by
  rw [blockCount_eq_ceil]
  omega

/-- Settles O4: the case split is the definition; the upper bound is that of the ceiling. -/
theorem blockCountIsCeiling : Obligations.BlockCountIsCeiling := fun L =>
  ⟨rfl, blockCount_eq_ceil L, blockCount_pos L, blockCount_le L⟩

/-! ## CHK (rule R103) -/

theorem exec_chk_of_overflow (s : State) (h : lengthLimit ≤ s.len.toNat) : exec .chk s = .next s.raiseLengthOverflow :=
  if_pos ((State.lengthOverflows_iff s).2 h)

theorem exec_chk_of_accepted (s : State) (h : s.len.toNat < lengthLimit) :
    exec .chk s =
      .next { s with h := iv, nb := BitVec.ofNat 56 (blockCount s.len.toNat), bi := 0, ph := .frame } :=
  if_neg (mt (State.lengthOverflows_iff s).1 (Nat.not_le.2 h))

/-- Settles O20: the two arms of the overflow test, and `NB` holds the number of blocks without wrap. -/
theorem chkGuardsAndInitialises : Obligations.ChkGuardsAndInitialises := fun s =>
  ⟨exec_chk_of_overflow s, fun h => ⟨_, blockCount_toNat s.len.toNat h, exec_chk_of_accepted s h⟩⟩

/-! ## Where `ERR` is raised (rules R109, R200) -/

/-- The one effect that turns `ERR` on is the overflow arm of CHK. -/
theorem Effect.chk_overflow_of_raised {s t : State} {i : Instr} (he : Effect s i t) (hs : s.err = false)
    (ht : t.err = true) : i = .chk ∧ lengthLimit ≤ s.len.toNat ∧ t = s.raiseLengthOverflow := by
  cases he with
  | overflow hl => exact ⟨rfl, hl, rfl⟩
  | reset | start => cases ht
  | _ => cases hs.symm.trans ht

theorem step_raises_only_in_chk (s t : State) (hstep : step s = .next t) (hs : s.err = false) (ht : t.err = true) :
    s.ph = .chk ∧ lengthLimit ≤ s.len.toNat ∧ t = s.consume.raiseLengthOverflow := by
  obtain ⟨i, he, hph⟩ := step_effect s t hstep
  obtain ⟨rfl, hl, hraise⟩ := he.chk_overflow_of_raised hs ht
  exact ⟨hph .chk rfl, hl, hraise⟩

/-- A START raised in `CHK` is ignored, for the phase is busy. -/
theorem fetch_chk (s : State) (hr : s.ports.rst = false) (hp : s.ph = .chk) (he : s.err = false) :
    s.fetch = .ok .chk :=
  fetch_own s hr (by simp [hp, Phase.resting]) (State.ControlInv.of_chk hp he).reachable (by simp [hp]) (by simp [hp]) _
    (by rw [hp]; rfl)

theorem step_chk_of_overflow (s : State) (hr : s.ports.rst = false) (hp : s.ph = .chk) (he : s.err = false)
    (hl : lengthLimit ≤ s.len.toNat) : step s = .next s.consume.raiseLengthOverflow :=
  (step_of_fetch s _ (fetch_chk s hr hp he)).trans (exec_chk_of_overflow s.consume hl)

/-- Without RESET a step goes on only where `ERR` and `ERROR` agree (93_implementation_defined.md U8). -/
theorem err_iff_of_step_next (s t : State) (hr : s.ports.rst = false) (hstep : step s = .next t) :
    s.err = true ↔ s.ph = .error := by
  cases hu : s.unreachable with
  | some r => cases (step_of_unreachable hr hu).symm.trans hstep
  | none => exact ((State.unreachable_eq_none_iff s).1 hu).1

/-- Settles O42: a raise is the overflow arm of CHK, and a step that goes on from `CHK` starts with `ERR = 0`. -/
theorem onlyChkRaisesLengthOverflow : Obligations.OnlyChkRaisesLengthOverflow := by
  refine ⟨step_raises_only_in_chk, fun s hr he hp hl => step_chk_of_overflow s hr hp he hl,
    fun s t hr hp hl hstep => ?accepted⟩
  have hs : s.err = false := by simpa [hp] using err_iff_of_step_next s t hr hstep
  rw [← Bool.not_eq_true]
  intro ht
  obtain ⟨-, hover, -⟩ := step_raises_only_in_chk s t hstep hs ht
  exact absurd hl (Nat.not_lt.2 hover)

/-! ## The bytes of the blocks (rule R102) -/

section
variable (m : Memory) {L j k : Nat} (hk : k < 64)

theorem fullBlock_getElem_of_lt (hj : j < fullBlocks L) :
    64 * j + k < L ∧ (fullBlock m j)[k] = Memory.read m (64 * j + k) :=
  ⟨by unfold fullBlocks at hj; omega, by simp [fullBlock]⟩

theorem finalBlock_getElem_of_lt (hj : j = fullBlocks L) (hr : k < tailLength L) :
    64 * j + k < L ∧ (finalBlock m L)[k] = Memory.read m (64 * j + k) := by
  subst hj
  exact ⟨(fullBlocks_add_cmp L k).1.2 hr, by simp [finalBlock, hr]⟩

theorem finalBlock_getElem_marker (hr : k = tailLength L) : (finalBlock m L)[k] = 0x80#8 := by
  simp [finalBlock, hr]

theorem finalBlock_getElem_zero (hr : tailLength L < k) (h56 : k < 56) : (finalBlock m L)[k] = 0x00#8 := by
  simp [finalBlock, hr.not_gt, hr.ne', h56]

theorem fillBlock_getElem_of_lt (hj : j = fullBlocks L) (hr : k < tailLength L) :
    64 * j + k < L ∧ (fillBlock m L)[k] = Memory.read m (64 * j + k) := by
  subst hj
  exact ⟨(fullBlocks_add_cmp L k).1.2 hr, by simp [fillBlock, hr]⟩

theorem fillBlock_getElem_marker (hr : k = tailLength L) : (fillBlock m L)[k] = 0x80#8 := by
  simp [fillBlock, hr]

theorem fillBlock_getElem_zero (hr : tailLength L < k) : (fillBlock m L)[k] = 0x00#8 := by
  simp [fillBlock, hr.not_gt, hr.ne']

theorem lengthBlock_getElem_zero (h56 : k < 56) : (lengthBlock L)[k] = 0x00#8 := by
  simp [lengthBlock, h56]

end

theorem finalBlock_getElem_lengthField (m : Memory) {L i : Nat} (hr : tailLength L ≤ 55) (hi : i < 8) :
    (finalBlock m L)[56 + i] = be64byte (bitLength L) i := by
  simp [finalBlock, show ¬ 56 + i < tailLength L by omega, show 56 + i ≠ tailLength L by omega]

theorem lengthBlock_getElem_lengthField {L i : Nat} (hi : i < 8) :
    (lengthBlock L)[56 + i] = be64byte (bitLength L) i := by
  simp [lengthBlock]

/-! ## The FRAME.* operations in their classes (rules R104 to R107) -/

theorem fullBlocks_add_tailLength (L : Nat) : 64 * fullBlocks L + tailLength L = L := Nat.div_add_mod L 64

section
variable (s : State) (hl : s.len.toNat < lengthLimit)
include hl

theorem exec_frameFull_next (hj : s.bi.toNat < fullBlocks s.len.toNat) :
    exec .frameFull s = .next (s.leaveFrame (fullBlock s.msg s.bi.toNat)) :=
  frameReading_next _ _ _ s hl (.inr (by unfold fullBlocks at hj; omega))

theorem exec_frameFinal_next (hc : s.bi.toNat = fullBlocks s.len.toNat ∧ tailLength s.len.toNat ≤ 55) :
    exec .frameFinal s = .next (s.leaveFrame (finalBlock s.msg s.len.toNat)) :=
  (if_pos hc).trans (frameReading_next _ _ _ s hl (.inr (by rw [hc.1, fullBlocks_add_tailLength])))

theorem exec_frameFill_next (hc : s.bi.toNat = fullBlocks s.len.toNat ∧ 56 ≤ tailLength s.len.toNat) :
    exec .frameFill s = .next (s.leaveFrame (fillBlock s.msg s.len.toNat)) :=
  (if_pos hc).trans (frameReading_next _ _ _ s hl (.inr (by rw [hc.1, fullBlocks_add_tailLength])))

theorem exec_frameLen_next (hc : s.bi.toNat = fullBlocks s.len.toNat + 1 ∧ 56 ≤ tailLength s.len.toNat) :
    exec .frameLen s = .next (s.leaveFrame (lengthBlock s.len.toNat)) :=
  (if_pos hc).trans (frameReading_next _ _ _ s hl (.inl rfl))

end

theorem blockCount_of_tail_le (L : Nat) (h : tailLength L ≤ 55) : blockCount L = fullBlocks L + 1 := if_pos h

theorem blockCount_of_le_tail (L : Nat) (h : 56 ≤ tailLength L) : blockCount L = fullBlocks L + 2 := if_neg (by omega)

/-- Settles O21: in its class every index exists. -/
theorem frameFullCopiesMessage : Obligations.FrameFullCopiesMessage := fun s hl hj =>
  ⟨_, exec_frameFull_next s hl hj, fun _ hk => fullBlock_getElem_of_lt s.msg hk hj⟩

/-- Settles O22: the four parts of the final block. -/
theorem frameFinalPadsLastBlock : Obligations.FrameFinalPadsLastBlock := by
  rintro s r hl hj rfl hr
  refine ⟨?last, _, exec_frameFinal_next s hl ⟨hj, hr⟩, fun k hk => finalBlock_getElem_of_lt s.msg hk hj,
    fun k hk => finalBlock_getElem_marker s.msg hk, fun k hk => finalBlock_getElem_zero s.msg hk, fun i hi => ?field⟩
  case last => rw [hj, blockCount_of_tail_le _ hr]; rfl
  case field => rw [finalBlock_getElem_lengthField s.msg hr hi, be64byte_toNat, bitLength]

/-- Settles O23: the three parts of the fill block. -/
theorem frameFillPadsTail : Obligations.FrameFillPadsTail := by
  rintro s r hl hj rfl hr
  refine ⟨?next, _, exec_frameFill_next s hl ⟨hj, hr⟩, fun k hk => fillBlock_getElem_of_lt s.msg hk hj,
    fun k hk => fillBlock_getElem_marker s.msg hk, fun k hk => fillBlock_getElem_zero s.msg hk⟩
  case next => rw [hj, blockCount_of_le_tail _ hr]; rfl

/-- Settles O24: the two parts of the length block. -/
theorem frameLenHoldsOnlyLength : Obligations.FrameLenHoldsOnlyLength := by
  intro s hl hj hr
  refine ⟨?last, _, exec_frameLen_next s hl ⟨hj, hr⟩, fun k hk => lengthBlock_getElem_zero hk, fun i hi => ?field⟩
  case last => rw [hj, blockCount_of_le_tail _ hr]; rfl
  case field => rw [lengthBlock_getElem_lengthField hi, be64byte_toNat, bitLength]

end Sys2Proof.Machine
end

section
/-! PROOFS of the statements of 41_unpack.md: the Word Packer as a bijection between blocks and Word blocks (rule R120),
and the schedule that UNPACK leaves (rule R121). -/

namespace Sys2Proof.Machine

/-! ## The bytes of a word -/

/-- A word determines its four bytes: `be32` is a base-256 numeral of four digits. -/
theorem be32_inj {a0 a1 a2 a3 b0 b1 b2 b3 : Byte} (h : be32 a0 a1 a2 a3 = be32 b0 b1 b2 b3) :
    a0 = b0 ∧ a1 = b1 ∧ a2 = b2 ∧ a3 = b3 := by
  have hsum := congrArg BitVec.toNat h
  rw [be32_toNat, be32_toNat] at hsum
  bv_omega

/-- The bytes of a word are the last four of the eight of its value. -/
theorem be32_be64byte (x : Word) :
    be32 (be64byte x.toNat 4) (be64byte x.toNat 5) (be64byte x.toNat 6) (be64byte x.toNat 7) = x := by
  apply BitVec.eq_of_toNat_eq
  simp only [be32_toNat, be64byte_toNat]
  omega

/-! ## The Word Packer (rule R120) -/

theorem unpack_getElem_toNat (b : Block) (i : Nat) (h : i < 16) :
    (unpack b)[i].toNat =
      b[4 * i].toNat * 2 ^ 24 + b[4 * i + 1].toNat * 2 ^ 16 + b[4 * i + 2].toNat * 2 ^ 8 + b[4 * i + 3].toNat := by
  rw [unpack_getElem, be32_toNat]

/-- Byte `j` of word `i`, for every `j < 4`, is byte `4 * i + j` of the block: none is lost. -/
theorem unpack_injective : Function.Injective unpack := by
  intro b b' h
  have hbytes : ∀ (i : Nat) (hi : i < 16) (j : Nat) (hj : j < 4), b[4 * i + j] = b'[4 * i + j] := by
    intro i hi j hj
    have hword : (unpack b)[i] = (unpack b')[i] := by rw [h]
    rw [unpack_getElem, unpack_getElem] at hword
    obtain ⟨h0, h1, h2, h3⟩ := be32_inj hword
    match j with
    | 0 => exact h0
    | 1 => exact h1
    | 2 => exact h2
    | 3 => exact h3
  ext k hk : 1
  simpa only [Nat.div_add_mod] using hbytes (k / 4) (by omega) (k % 4) (by omega)

/-- The block whose words are `x`: each word written out as four bytes, most significant first. -/
def blockOfWords (x : Vector Word 16) : Block :=
  Vector.ofFn fun k => be64byte x[k.val / 4].toNat (4 + k.val % 4)

theorem blockOfWords_getElem (x : Vector Word 16) (i j : Nat) (hi : i < 16) (hj : j < 4) :
    (blockOfWords x)[4 * i + j] = be64byte x[i].toNat (4 + j) := by
  have hdiv : (4 * i + j) / 4 = i := by omega
  have hmod : (4 * i + j) % 4 = j := by omega
  simp [blockOfWords, hdiv, hmod]

theorem unpack_blockOfWords (x : Vector Word 16) : unpack (blockOfWords x) = x := by
  ext i hi : 1
  have h0 : (blockOfWords x)[4 * i] = be64byte x[i].toNat 4 := blockOfWords_getElem x i 0 hi (by omega)
  rw [unpack_getElem, h0, blockOfWords_getElem x i 1 hi (by omega), blockOfWords_getElem x i 2 hi (by omega),
    blockOfWords_getElem x i 3 hi (by omega), be32_be64byte]

/-- Settles O7: no two blocks have the same words, and every Word block is that of `blockOfWords`. -/
theorem unpackIsBigEndianBijection : Obligations.UnpackIsBigEndianBijection :=
  ⟨unpack_getElem_toNat, unpack_injective, fun x => ⟨blockOfWords x, unpack_blockOfWords x⟩⟩

/-! ## UNPACK (rule R121) -/

theorem withWordBlock_getElem_of_ge (w : Schedule) (x : Vector Word 16) (i : Nat) (h : i < 80) (hi : 16 ≤ i) :
    (withWordBlock w x)[i] = w[i] := by
  simp [withWordBlock, Nat.not_lt.2 hi]

/-- Settles O25: the words below 16 are those of `unpack`, the others are kept. -/
theorem unpackLoadsWordBlock : Obligations.UnpackLoadsWordBlock := by
  intro s
  refine ⟨withWordBlock s.w (unpack s.blk), rfl, fun i hi => ?_, withWordBlock_getElem_of_ge s.w _⟩
  rw [withWordBlock_getElem_of_lt _ _ i hi, unpack_getElem_toNat]

end Sys2Proof.Machine
end

section
/-! PROOFS of the statements of 42_schedule.md: `expand` as the one solution of the recurrence (rule R125), EXPAND as one
index of it (rule R126), and the run of UNPACK and the sixty-four EXPAND steps (rule R128). -/

namespace Sys2Proof.Machine

/-! ## The Schedule Expander (rule R125) -/

/-- The recurrence leaves no choice: by strong induction every word is fixed by the words below it. -/
theorem getElem_eq_expand_of_recurrence (x : Vector Word 16) (y : Schedule)
    (hcopy : ∀ (i : Nat) (h : i < 16), y[i] = x[i])
    (hrec : ∀ (t : Nat) (ht : 16 ≤ t ∧ t < 80), y[t] = scheduleWord y t ht) (i : Nat) (hi : i < 80) :
    y[i] = (expand x)[i] := by
  induction i using Nat.strong_induction_on with
  | _ i ih =>
    by_cases hlt : i < 16
    · rw [hcopy i hlt, expand_getElem_of_lt x i hlt]
    · have ht : 16 ≤ i ∧ i < 80 := by omega
      rw [hrec i ht, expand_getElem_eq_scheduleWord x i ht]
      exact scheduleWord_congr y (expand x) i ht fun j hj hji => ih j hji hj

/-- Settles O8: `expand` solves the recurrence, and no other schedule does. -/
theorem expandIsTheRecurrence : Obligations.ExpandIsTheRecurrence := by
  intro x y
  constructor
  · rintro rfl
    exact ⟨expand_getElem_of_lt x, expand_getElem_eq_scheduleWord x⟩
  · rintro ⟨hcopy, hrec⟩
    exact Vector.ext (getElem_eq_expand_of_recurrence x y hcopy hrec)

/-! ## EXPAND (rule R126) -/

theorem exec_expand_next (s : State) (ht : 16 ≤ s.t.toNat ∧ s.t.toNat < 80) :
    exec .expand s = .next { s with
      w := s.w.set s.t.toNat (scheduleWord s.w s.t.toNat ht) ht.2
      t := s.t + 1
      ph := if s.t.toNat + 1 = 80 then .load else .expand } :=
  dif_pos ht

/-- Settles O26: the word at `T` is that of the recurrence over the old schedule, and only it is set. -/
theorem expandComputesOneWord : Obligations.ExpandComputesOneWord := by
  rintro s T hT rfl
  have ht : 16 ≤ s.t.toNat ∧ s.t.toNat < 80 := by omega
  have hlast : s.t.toNat + 1 = 80 ↔ s.t.toNat = 79 := by omega
  refine ⟨s.w.set s.t.toNat (scheduleWord s.w s.t.toNat ht) ht.2, s.t + 1, index_succ_toNat s.t ht.2, ?next, ?word,
    fun i hi hne => ?other⟩
  case next => simp only [exec_expand_next s ht, hlast]
  case word => exact Vector.getElem_set_self ht.2
  case other => exact Vector.getElem_set_ne ht.2 hi hne.symm

/-! ## The run over a schedule (rule R128) -/

theorem run_core_succ {s t : State} (n : Nat) (h : step s = .next t) :
    Host.Core.run core (n + 1) s = Host.Core.run core n t := by
  have hcore : core.step s = .next t := h
  simp only [Host.Core.run, hcore]

theorem State.Inv.controlInv {s : State} (h : s.Inv) : s.ControlInv where
  errorFlag := h.errorFlag
  accepted := h.accepted
  blockIndex := h.blockIndex
  index := h.index
  indexBound := h.indexBound
  finished := h.finished
  message := rfl
  presented := rfl

/-- Without a host event, outside `FRAME` and `ROUND`, a step performs the operation the map gives the phase. -/
theorem State.ControlInv.step_eq_exec {s : State} {p : Phase} (h : s.ControlInv) (hq : s.Quiet) (hp : s.ph = p)
    (i : Instr) (hi : decodeControl p.code 0#2 = .ok i) (hf : p ≠ .frame ∧ p ≠ .round := by decide) :
    step s = exec i s := by
  subst hp
  rw [step_of_fetch s i (fetch_own s hq.1 (by simp [hq.2]) h.reachable hf.1 hf.2 i hi),
    State.consume_of_quiet s hq.1 hq.2]

/-- A step without a host event is the core's own, so it keeps the control invariants and raises nothing. -/
theorem State.ControlInv.kept_by_step {s t : State} (h : s.ControlInv) (hq : s.Quiet) (hstep : step s = .next t) :
    t.ControlInv ∧ t.Quiet := by
  obtain ⟨i, u, hu⟩ := h.exists_ownStep hq
  obtain rfl : u = t := Host.Outcome.next.inj ((hu.step_eq hq).symm.trans hstep)
  exact ⟨hu.effect.keeps_controlInv hu.ph_eq h, hu.quiet hq⟩

theorem State.ControlInv.step_expand {s : State} (h : s.ControlInv) (hq : s.Quiet) (hp : s.ph = .expand)
    (ht : 16 ≤ s.t.toNat ∧ s.t.toNat < 80) :
    step s = .next { s with
      w := s.w.set s.t.toNat (scheduleWord s.w s.t.toNat ht) ht.2
      t := s.t + 1
      ph := if s.t.toNat + 1 = 80 then .load else .expand } :=
  (h.step_eq_exec hq hp .expand rfl).trans (exec_expand_next s ht)

/-- From index `T` on, by induction on the steps that are left, a schedule that agrees with `expand x` below `T` is
completed. -/
theorem State.ControlInv.run_expand {s : State} (h : s.ControlInv) (hq : s.Quiet) (hp : s.ph = .expand)
    (x : Vector Word 16) (n : Nat) (ht : 16 ≤ s.t.toNat) (hn : s.t.toNat + (n + 1) = 80)
    (hw : ∀ (i : Nat) (hi : i < 80), i < s.t.toNat → s.w[i] = (expand x)[i]) :
    Host.Core.run core (n + 1) s = .next { s with w := expand x, t := 80#7, ph := .load } := by
  induction n generalizing s with
  | zero =>
    have hrange : 16 ≤ s.t.toNat ∧ s.t.toNat < 80 := by omega
    have hstep := h.step_expand hq hp hrange
    have hword : s.w.set s.t.toNat (scheduleWord s.w s.t.toNat hrange) hrange.2 = expand x :=
      Vector.ext fun i hi => set_scheduleWord_getElem s.w x s.t.toNat hrange hw i hi (by omega)
    have hindex : s.t + 1 = 80#7 := by bv_omega
    rw [hword, hindex, if_pos hn] at hstep
    exact run_core_succ 0 hstep
  | succ n ih =>
    have hrange : 16 ≤ s.t.toNat ∧ s.t.toNat < 80 := by omega
    have hstep := h.step_expand hq hp hrange
    have hindex : (s.t + 1).toNat = s.t.toNat + 1 := index_succ_toNat s.t hrange.2
    rw [if_neg (by omega)] at hstep
    obtain ⟨hinv, hquiet⟩ := h.kept_by_step hq hstep
    refine (run_core_succ (n + 1) hstep).trans (ih hinv hquiet rfl ?low ?left ?agrees)
    case low => simp only [hindex]; omega
    case left => simp only [hindex]; omega
    case agrees =>
      intro i hi hlt
      exact set_scheduleWord_getElem s.w x s.t.toNat hrange hw i hi (hindex ▸ hlt)

/-- Settles O51: UNPACK copies the Word block, and the EXPAND steps do the rest. -/
theorem scheduleStepsExpandTheBlock : Obligations.ScheduleStepsExpandTheBlock := by
  intro s h hq hp
  have hstep : step s = .next { s with w := withWordBlock s.w (unpack s.blk), t := 16, ph := .expand } :=
    h.controlInv.step_eq_exec hq hp .unpack rfl
  obtain ⟨hinv, hquiet⟩ := h.controlInv.kept_by_step hq hstep
  refine (run_core_succ 64 hstep).trans (hinv.run_expand hquiet rfl (unpack s.blk) 63 (Nat.le_refl 16) rfl ?_)
  intro i hi hlt
  exact (withWordBlock_getElem_of_lt _ _ i hlt).trans (expand_getElem_of_lt _ i hlt).symm

end Sys2Proof.Machine
end

section
/-! PROOFS of the statements of 43_compress.md: the logical functions bit by bit (rules R135 to R137), LOAD, the four
ROUND.* operations and ACCUM (rules R139 to R146), and the runs of a compression (rule R145) and of a whole block (rules
R146 to R148). -/

namespace Sys2Proof.Machine

/-! ## The logical functions (rules R135 to R137) -/

section
variable (b c d : Word)

theorem fCh_getLsbD (i : Nat) (hi : i < 32) :
    (fCh b c d).getLsbD i = if b.getLsbD i then c.getLsbD i else d.getLsbD i := by
  have hchoice : ∀ x y z : Bool, (x && y || !x && z) = if x then y else z := by decide
  simp only [fCh, BitVec.getLsbD_or, BitVec.getLsbD_and, BitVec.getLsbD_not, hi, decide_true, Bool.true_and, hchoice]

theorem fPar_getLsbD (i : Nat) : (fPar b c d).getLsbD i = ((b.getLsbD i ^^ c.getLsbD i) ^^ d.getLsbD i) := by
  simp only [fPar, BitVec.getLsbD_xor]

theorem fMaj_getLsbD (i : Nat) :
    (fMaj b c d).getLsbD i = decide (2 ≤ (b.getLsbD i).toNat + (c.getLsbD i).toNat + (d.getLsbD i).toNat) := by
  have hmajority : ∀ x y z : Bool, (x && y || x && z || y && z) = decide (2 ≤ x.toNat + y.toNat + z.toNat) := by decide
  simp only [fMaj, BitVec.getLsbD_or, BitVec.getLsbD_and, hmajority]

/-- `b` takes a bit from one of the two terms of the choice only. -/
theorem fCh_terms_disjoint : (b &&& c) &&& (~~~b &&& d) = 0#32 := by
  ext i hi
  cases hb : b[i] <;> simp [hb]

/-- Without a common bit there is no carry, so the disjunction of the two terms is their sum. -/
theorem fCh_eq_add : fCh b c d = (b &&& c) + (~~~b &&& d) :=
  (BitVec.add_eq_or_of_and_eq_zero _ _ (fCh_terms_disjoint b c d)).symm

theorem fCh_eq_xor : fCh b c d = (b &&& c) ^^^ (~~~b &&& d) := by
  ext i hi
  cases hb : b[i] <;> simp [fCh, hb]

theorem fCh_allOnes : fCh 0xFFFFFFFF#32 c d = c := by
  have hones : 0xFFFFFFFF#32 = BitVec.allOnes 32 := rfl
  rw [fCh, hones, BitVec.allOnes_and, BitVec.not_allOnes, BitVec.zero_and, BitVec.or_zero]

theorem fCh_zero : fCh 0#32 c d = d := by
  rw [fCh, BitVec.zero_and, BitVec.not_zero, BitVec.allOnes_and, BitVec.zero_or]

theorem fMaj_eq_of_fst_snd : fMaj b b d = b := by
  ext i hi
  cases hb : b[i] <;> simp [fMaj, hb]

theorem fMaj_eq_of_fst_thd : fMaj b c b = b := by
  ext i hi
  cases hb : b[i] <;> simp [fMaj, hb]

theorem fMaj_eq_of_snd_thd : fMaj d b b = b := by
  ext i hi
  cases hb : b[i] <;> simp [fMaj, hb]

end

/-- Settles O3: the bits of each function, and the two disjoint terms of the choice. -/
theorem logicalFunctionsAreBitwise : Obligations.LogicalFunctionsAreBitwise := fun b c d =>
  ⟨fun i hi => ⟨fCh_getLsbD b c d i hi, fPar_getLsbD b c d i, fMaj_getLsbD b c d i⟩, fCh_terms_disjoint b c d,
    fCh_eq_xor b c d, fCh_eq_add b c d, fCh_allOnes c d, fCh_zero c d, fMaj_eq_of_fst_snd b d,
    fMaj_eq_of_fst_thd b c, fMaj_eq_of_snd_thd c b⟩

/-! ## LOAD, ROUND.* and ACCUM (rules R139 to R146) -/

/-- Settles O27: LOAD has no guard. -/
theorem loadCopiesRunningState : Obligations.LoadCopiesRunningState := fun _ => rfl

/-- The round of rule R140 with its one sum written out. -/
theorem roundWith_eq (f : Word → Word → Word → Word) (k : Word) (s : SRegs) (w : Word) :
    roundWith f k s w = ⟨rotl s.s1 5 + f s.s2 s.s3 s.s4 + s.s5 + w + k, s.s1, rotl s.s2 30, s.s3, s.s4⟩ := by
  rw [roundWith, add32_five]

/-- A round inside a quarter, which only at 79 is the last of the block (rules R141 to R144). -/
theorem roundStep_performs_round (lo : Nat) (f : Word → Word → Word → Word) (k : Word) (s : State)
    (h : lo ≤ s.t.toNat ∧ s.t.toNat < lo + 20 ∧ s.t.toNat < 80) :
    ∃ t : BitVec 7, t.toNat = s.t.toNat + 1 ∧
      roundStep lo f k s = .next { s with
        s := ⟨rotl s.s.s1 5 + f s.s.s2 s.s.s3 s.s.s4 + s.s.s5 + s.w[s.t.toNat]'h.2.2 + k,
          s.s.s1, rotl s.s.s2 30, s.s.s3, s.s.s4⟩
        t := t, ph := if s.t.toNat = 79 then .accum else .round } := by
  have hlast : s.t.toNat + 1 = 80 ↔ s.t.toNat = 79 := by omega
  refine ⟨s.t + 1, index_succ_toNat s.t h.2.2, ?_⟩
  simp only [roundStep_next lo f k s h, roundWith_eq, hlast]

/-- Before round 79 the phase stays `ROUND`. -/
theorem roundStep_stays_in_round (lo : Nat) (f : Word → Word → Word → Word) (k : Word) (s : State)
    (h : lo ≤ s.t.toNat ∧ s.t.toNat < lo + 20 ∧ s.t.toNat < 79) :
    ∃ t : BitVec 7, t.toNat = s.t.toNat + 1 ∧
      roundStep lo f k s = .next { s with
        s := ⟨rotl s.s.s1 5 + f s.s.s2 s.s.s3 s.s.s4 + s.s.s5 + s.w[s.t.toNat] + k,
          s.s.s1, rotl s.s.s2 30, s.s.s3, s.s.s4⟩
        t := t, ph := .round } := by
  have hround := roundStep_performs_round lo f k s (by omega)
  rwa [if_neg (by omega)] at hround

/-- Settles O28: the round of the first quarter, with `f_ch` and `K[0]`. -/
theorem roundChPerformsRound : Obligations.RoundChPerformsRound := by
  rintro s T hT rfl
  exact roundStep_stays_in_round 0 fCh k0 s (by omega)

/-- Settles O29: the round of the second quarter, with `f_par` and `K[1]`. -/
theorem roundPar1PerformsRound : Obligations.RoundPar1PerformsRound := by
  rintro s T hT rfl
  exact roundStep_stays_in_round 20 fPar k1 s (by omega)

/-- Settles O30: the round of the third quarter, with `f_maj` and `K[2]`. -/
theorem roundMajPerformsRound : Obligations.RoundMajPerformsRound := by
  rintro s T hT rfl
  exact roundStep_stays_in_round 40 fMaj k2 s (by omega)

/-- Settles O31: the round of the fourth quarter, with `f_par` and `K[3]`, and the last of the block. -/
theorem roundPar2PerformsRound : Obligations.RoundPar2PerformsRound := by
  rintro s T hT rfl
  exact roundStep_performs_round 60 fPar k3 s (by omega)

theorem HRegs.accumulate_eq (h : HRegs) (s : SRegs) :
    h.accumulate s = ⟨h.a + s.s1, h.b + s.s2, h.c + s.s3, h.d + s.s4, h.e + s.s5⟩ := by
  simp only [HRegs.accumulate, add32_pair]

theorem exec_accum_next (s : State) (hb : s.bi.toNat < s.nb.toNat) :
    exec .accum s = .next { s with
      h := s.h.accumulate s.s
      bi := s.bi + 1
      ph := if s.bi.toNat + 1 = s.nb.toNat then .fmt else .frame } :=
  if_pos hb

/-- Settles O32: each of the five sums wraps on its own, and `BI` does not wrap. -/
theorem accumFoldsRoundOutput : Obligations.AccumFoldsRoundOutput := by
  intro s hb
  refine ⟨s.bi + 1, blockIndex_succ_toNat s.bi s.nb hb, ?_⟩
  rw [exec_accum_next s hb, HRegs.accumulate_eq]

/-! ## The core's own step in `FRAME`, `ROUND` and `ACCUM` -/

/-- The operations that belong to `FRAME` leave block `BI` (rule R108). -/
theorem eq_leaveFrame_of_effect {s t : State} {i : Instr} (he : Effect s i t) (hi : i.ownPhase = some .frame) :
    ∃ b, block s.msg s.len.toNat s.bi.toNat = some b ∧ t = s.leaveFrame b := by
  cases he with
  | frame i b _ hb => exact ⟨b, hb, rfl⟩
  | hold i p hp hr => cases hp.symm.trans hi; cases hr
  | round i ht hp => cases hp.symm.trans hi
  | _ => cases hi

/-- The operations that belong to `ROUND` perform round `T` (rule R140). -/
theorem eq_round_of_effect {s t : State} {i : Instr} (he : Effect s i t) (hi : i.ownPhase = some .round) :
    ∃ ht : s.t.toNat < 80, t = { s with
      s := round s.s s.t.toNat s.w[s.t.toNat]
      t := s.t + 1
      ph := if s.t.toNat + 1 = 80 then .accum else .round } := by
  cases he with
  | round i ht _ => exact ⟨ht, rfl⟩
  | hold i p hp hr => cases hp.symm.trans hi; cases hr
  | frame i b hp _ => cases hp.symm.trans hi
  | _ => cases hi

section
variable {s : State} (h : s.ControlInv) (hq : s.Quiet)
include h hq

theorem State.ControlInv.step_frame (hp : s.ph = .frame) :
    ∃ b, block s.msg s.len.toNat s.bi.toNat = some b ∧ step s = .next (s.leaveFrame b) := by
  obtain ⟨i, t, hown⟩ := h.ownStep_frame hq hp
  obtain ⟨b, hb, rfl⟩ := eq_leaveFrame_of_effect hown.effect (hp ▸ hown.own)
  exact ⟨b, hb, hown.step_eq hq⟩

theorem State.ControlInv.step_round (hp : s.ph = .round) :
    ∃ ht : s.t.toNat < 80, step s = .next { s with
      s := round s.s s.t.toNat s.w[s.t.toNat]
      t := s.t + 1
      ph := if s.t.toNat + 1 = 80 then .accum else .round } := by
  obtain ⟨i, t, hown⟩ := h.ownStep_round hq hp
  obtain ⟨ht, rfl⟩ := eq_round_of_effect hown.effect (hp ▸ hown.own)
  exact ⟨ht, hown.step_eq hq⟩

theorem State.ControlInv.step_accum (hp : s.ph = .accum) :
    step s = .next { s with
      h := s.h.accumulate s.s
      bi := s.bi + 1
      ph := if s.bi.toNat + 1 = s.nb.toNat then .fmt else .frame } :=
  (h.step_eq_exec hq hp .accum rfl).trans (exec_accum_next s (h.blockIndex (by simp [hp, Phase.onBlock])))

end

/-! ## The run over the rounds (rule R145) -/

/-- When the first `T` rounds of a compression are done, a step does one more. -/
theorem State.ControlInv.step_roundsFirst {s : State} (h : s.ControlInv) (hq : s.Quiet) (hp : s.ph = .round)
    (hs : s.s = roundsFirst s.h.toWorking s.w s.t.toNat) :
    s.t.toNat < 80 ∧ step s = .next { s with
      s := roundsFirst s.h.toWorking s.w (s.t.toNat + 1)
      t := s.t + 1
      ph := if s.t.toNat + 1 = 80 then .accum else .round } := by
  obtain ⟨ht, hstep⟩ := h.step_round hq hp
  rw [hs, ← roundsFirst_succ _ _ _ ht] at hstep
  exact ⟨ht, hstep⟩

/-- From round `T` on, by induction on the rounds that are left, the first `T` rounds of a compression are completed. -/
theorem State.ControlInv.run_round {s : State} (h : s.ControlInv) (hq : s.Quiet) (hp : s.ph = .round) (n : Nat)
    (hn : s.t.toNat + (n + 1) = 80) (hs : s.s = roundsFirst s.h.toWorking s.w s.t.toNat) :
    Host.Core.run core (n + 1) s = .next { s with s := compress s.h s.w, t := 80#7, ph := .accum } := by
  induction n generalizing s with
  | zero =>
    obtain ⟨-, hstep⟩ := h.step_roundsFirst hq hp hs
    have hindex : s.t + 1 = 80#7 := by bv_omega
    rw [if_pos hn, hn, hindex] at hstep
    exact run_core_succ 0 hstep
  | succ n ih =>
    obtain ⟨ht, hstep⟩ := h.step_roundsFirst hq hp hs
    have hindex : (s.t + 1).toNat = s.t.toNat + 1 := index_succ_toNat s.t ht
    rw [if_neg (by omega), ← hindex] at hstep
    obtain ⟨hinv, hquiet⟩ := h.kept_by_step hq hstep
    exact (run_core_succ (n + 1) hstep).trans (ih hinv hquiet rfl (by simp only [hindex]; omega) rfl)

/-- Settles O52: LOAD starts from no round done, and the ROUND.* steps do the eighty. -/
theorem roundStepsCompressTheBlock : Obligations.RoundStepsCompressTheBlock := by
  intro s h hq hp
  have hstep : step s = .next { s with s := s.h.toWorking, t := 0, ph := .round } :=
    h.controlInv.step_eq_exec hq hp .load rfl
  obtain ⟨hinv, hquiet⟩ := h.controlInv.kept_by_step hq hstep
  exact (run_core_succ 80 hstep).trans (hinv.run_round hquiet rfl 79 rfl rfl)

/-! ## The run over a block (rules R146 to R148) -/

theorem run_core_succ_eq_next {s t : State} {n : Nat} (h : Host.Core.run core (n + 1) s = .next t) :
    ∃ u, step s = .next u ∧ Host.Core.run core n u = .next t := by
  cases hstep : step s with
  | next u => exact ⟨u, rfl, (run_core_succ n hstep).symm.trans h⟩
  | fault r =>
    have hcore : core.step s = .fault r := hstep
    simp [Host.Core.run, hcore] at h
  | refused r =>
    have hcore : core.step s = .refused r := hstep
    simp [Host.Core.run, hcore] at h

/-- A run goes on from where a shorter run has come to. -/
theorem run_core_add (m n : Nat) {s t : State} (h : Host.Core.run core m s = .next t) :
    Host.Core.run core (m + n) s = Host.Core.run core n t := by
  induction m generalizing s with
  | zero => cases h; rw [Nat.zero_add]
  | succ m ih =>
    obtain ⟨u, hstep, hrun⟩ := run_core_succ_eq_next h
    rw [Nat.succ_add, run_core_succ (m + n) hstep, ih hrun]

/-- A run without a host event keeps the invariants and raises nothing. -/
theorem State.Inv.kept_by_run {s t : State} (h : s.Inv) (hq : s.Quiet) (n : Nat)
    (hrun : Host.Core.run core n s = .next t) : t.Inv ∧ t.Quiet := by
  induction n generalizing s with
  | zero => cases hrun; exact ⟨h, hq⟩
  | succ n ih =>
    obtain ⟨u, hstep, hrest⟩ := run_core_succ_eq_next hrun
    exact ih (invariantIsKeptByEveryStep s u h hstep) (h.controlInv.kept_by_step hq hstep).2 hrest

/-- Settles O53: one FRAME.*, the 65 steps of the schedule, the 81 of the compression, and ACCUM. -/
theorem blockStepsAbsorbTheBlock : Obligations.BlockStepsAbsorbTheBlock := by
  intro s h hq hp
  obtain ⟨b, hb, hstep⟩ := h.controlInv.step_frame hq hp
  have hframe : Host.Core.run core 1 s = .next (s.leaveFrame b) := run_core_succ 0 hstep
  obtain ⟨hinv₁, hquiet₁⟩ := h.kept_by_run hq 1 hframe
  have hschedule := scheduleStepsExpandTheBlock _ hinv₁ hquiet₁ rfl
  obtain ⟨hinv₂, hquiet₂⟩ := hinv₁.kept_by_run hquiet₁ 65 hschedule
  have hcompress := roundStepsCompressTheBlock _ hinv₂ hquiet₂ rfl
  obtain ⟨hinv₃, hquiet₃⟩ := hinv₂.kept_by_run hquiet₂ 81 hcompress
  have haccum := hinv₃.controlInv.step_accum hquiet₃ rfl
  refine ⟨b, s.bi + 1, hb, blockIndex_succ_toNat s.bi s.nb (h.blockIndex (by simp [hp, Phase.onBlock])), ?_⟩
  calc Host.Core.run core 148 s
      = Host.Core.run core 147 _ := run_core_add 1 147 hframe
    _ = Host.Core.run core 82 _ := run_core_add 65 82 hschedule
    _ = Host.Core.run core 1 _ := run_core_add 81 1 hcompress
    _ = _ := run_core_succ 0 haccum

end Sys2Proof.Machine
end

section
/-! PROOFS of the statements of 44_format.md: FMT (rule R162) leaves the characters of rule R161 in `DIGEST`, in the byte
codes of 30_encoding.md rule R76. -/

namespace Sys2Proof.Machine

/-! ## FMT (rule R162) -/

/-- FMT has no guard and no failure path. -/
theorem exec_fmt_next (s : State) : exec .fmt s = .next { s with digest := format s.h, ph := .done } := rfl

/-- Settles O33: the bytes are those of `format`, each of which O9 gives as the code of its digit of `H`. -/
theorem fmtRendersDigest : Obligations.FmtRendersDigest := by
  intro s
  obtain ⟨hcodes, -, -⟩ := formatIsInjectiveUppercaseHex
  exact ⟨format s.h, exec_fmt_next s, hcodes s.h⟩

end Sys2Proof.Machine
end

section
/-! PROOFS of the statements of 45_transaction.md: START and HOLD (rules R171, R172, R180), which operation a step
performs (rules R175, R176, R178), and what a transaction computes, refuses and forgets (rules R170, R177, R179). -/

namespace Sys2Proof.Machine

/-! ## START and HOLD (rules R171, R172, R180) -/

theorem Phase.resting_iff (p : Phase) : p.resting = true ↔ p = .idle ∨ p = .done ∨ p = .error := by
  cases p <;> decide

theorem exec_start_of_resting (len : BitVec 64) (s : State) (h : s.ph.resting = true) :
    exec (.start len) s = .next (s.beginTransaction len) := if_pos h

theorem exec_start_of_busy (len : BitVec 64) (s : State) (h : s.ph.resting = false) :
    exec (.start len) s = .next s := if_neg (by simp [h])

/-- Settles O17: the accepting arm of START. -/
theorem startBeginsTransaction : Obligations.StartBeginsTransaction := fun len s hp =>
  exec_start_of_resting len s ((Phase.resting_iff s.ph).2 hp)

/-- Settles O18: the ignoring arm of START. -/
theorem startWhileBusyChangesNothing : Obligations.StartWhileBusyChangesNothing := by
  intro len s hidle hdone herror
  refine exec_start_of_busy len s ?_
  rw [← Bool.not_eq_true, Phase.resting_iff]
  simp [hidle, hdone, herror]

/-- Settles O19: the arm of each of the three encodings. -/
theorem holdWritesNothing : Obligations.HoldWritesNothing := fun _ => ⟨rfl, rfl, rfl⟩

/-! ## The operation of a step (rule R175) -/

theorem fetch_of_operationWord (s : State) {w : RawWord} {i : Instr} (hw : s.operationWord = .ok w)
    (hd : decode w = .ok i) : s.fetch = .ok i := by
  simp only [State.fetch, hw, hd]

theorem operationWord_rst (s : State) (hr : s.ports.rst = true) : s.operationWord = .ok (.rst 1#1) := if_pos hr

theorem step_of_operationWord_error (s : State) {r : Refusal} (h : s.operationWord = .error r) :
    step s = .refused r := by
  simp only [step, State.fetch, h]

/-- START is selected by the command word, its `start` bit on top. -/
theorem operationWord_start (s : State) (hr : s.ports.rst = false) (hu : s.unreachable = none)
    (hs : s.ports.start = true) (hrest : s.ph.resting = true) : s.operationWord = .ok (.cmd (1#1 ++ s.ports.len)) := by
  simp [State.operationWord, hr, hu, hs, hrest, Ports.command]

/-- Settles O36: one lemma for each place the operation word comes from. -/
theorem stepRunsDecodedOperation : Obligations.StepRunsDecodedOperation := fun s =>
  ⟨fun _ i hw hd => step_of_fetch s i (fetch_of_operationWord s hw hd),
    operationWord_rst s,
    operationWord_start s,
    fun hr hu hs w hw => operationWord_own s hr (by rcases hs with hs | hs <;> simp [hs]) hu w hw,
    fun _ => step_of_operationWord_error s⟩

theorem step_of_rst (s : State) (hr : s.ports.rst = true) : step s = .next s.consume.toReset :=
  step_of_fetch s .reset (fetch_of_operationWord s (operationWord_rst s hr) rfl)

/-- In a busy phase the strobes sampled before the step, instead of by it, make no difference. -/
theorem step_consume_of_busy (s : State) (hr : s.ports.rst = false) (hb : s.ph.resting = false) :
    step s.consume = step s := by
  have hu : s.consume.unreachable = s.unreachable := rfl
  have hc : s.consume.controlWord = s.controlWord := rfl
  have hword : s.consume.operationWord = s.operationWord := by simp [State.operationWord, hu, hc, hr, hb]
  have hconsume : s.consume.consume = s.consume := rfl
  simp only [step, State.fetch, hword, hconsume]

/-- Settles O38: with the strobes sampled the two states are the same. -/
theorem startWhileBusyIsIgnored : Obligations.StartWhileBusyIsIgnored := fun s hr hb =>
  (step_consume_of_busy s hr hb).symm.trans
    (step_consume_of_busy { s with ports := { s.ports with start := false } } hr hb)

/-- Settles O39: the operation fetched at rest is the HOLD of the phase. -/
theorem restingStateIsStable : Obligations.RestingStateIsStable := by
  intro s hq hrest herr ht
  have hu := unreachable_eq_none_of_resting s hrest herr ht
  have hstep : ∀ i, s.ph ≠ .frame → s.ph ≠ .round → decodeControl s.ph.code 0#2 = .ok i → exec i s = .next s →
      step s = .next s := fun i hf hn hi hnext => by
    rw [step_of_fetch s i (fetch_own s hq.1 (by simp [hq.2]) hu hf hn i hi), State.consume_of_quiet s hq.1 hq.2, hnext]
  rcases (Phase.resting_iff s.ph).1 hrest with hp | hp | hp
  · exact hstep .holdIdle (by simp [hp]) (by simp [hp]) (by rw [hp]; rfl) rfl
  · exact hstep .holdDone (by simp [hp]) (by simp [hp]) (by rw [hp]; rfl) rfl
  · exact hstep .holdError (by simp [hp]) (by simp [hp]) (by rw [hp]; rfl) rfl

/-! ## Every state that keeps the invariants goes on (rules R175, R178) -/

theorem State.ControlInv.exists_step {s : State} (h : s.ControlInv) (hq : s.Quiet) : ∃ t, step s = .next t := by
  obtain ⟨_, t, hown⟩ := h.exists_ownStep hq
  exact ⟨t, hown.step_eq hq⟩

/-- Settles O41: RESET, an accepted START, or the core's own operation, where a START raised in a busy phase makes no
difference. -/
theorem everyInvariantStateHasNextStep : Obligations.EveryInvariantStateHasNextStep := by
  intro s h
  cases hr : s.ports.rst with
  | true => exact ⟨_, step_of_rst s hr⟩
  | false =>
    cases hs : s.ports.start with
    | false => exact h.controlInv.exists_step ⟨hr, hs⟩
    | true =>
      cases hrest : s.ph.resting with
      | true => exact ⟨_, State.Commanded.step_start ⟨hr, hs, hrest, h.errorFlag, h.indexBound⟩⟩
      | false =>
        rw [← step_consume_of_busy s hr hrest]
        exact h.consume.controlInv.exists_step ⟨rfl, rfl⟩

/-! ## The sequencer's table (rule R176) -/

/-- A FRAME.* operation that goes on is the one of its block (40_padder.md rule R108 (a)). -/
theorem eq_frameOperation (i : Instr) (s t : State) (hi : i.ownPhase = some .frame) (h : exec i s = .next t) :
    i = frameOperation s.len.toNat s.bi.toNat := by
  unfold frameOperation
  cases i <;> cases hi
  case frameFull =>
    obtain ⟨-, hlen, -⟩ := frameReading_eq_next _ _ _ s t h
    rw [if_pos (by omega)]
  case frameFinal =>
    obtain ⟨⟨hq, hr⟩, -⟩ := guarded_eq_next h
    unfold fullBlocks at hq
    unfold tailLength at hr
    rw [if_neg (by omega), if_pos hr]
  case frameFill =>
    obtain ⟨⟨hq, hr⟩, -⟩ := guarded_eq_next h
    unfold fullBlocks at hq
    unfold tailLength at hr
    rw [if_neg (by omega), if_neg (by omega), if_pos hq]
  case frameLen =>
    obtain ⟨⟨hq, hr⟩, -⟩ := guarded_eq_next h
    unfold fullBlocks at hq
    unfold tailLength at hr
    rw [if_neg (by omega), if_neg (by omega), if_neg (by omega)]

/-- HOLD in its own phase follows that phase's row. -/
theorem sequencerRow_of_hold (s : State) (i : Instr) (hi : i.ownPhase = some s.ph) (hr : s.ph.resting = true) :
    (⟨i, s.ph, s.t.toNat, s.bi.toNat⟩ : SequencerRow) = sequencerRow s := by
  rcases (Phase.resting_iff s.ph).1 hr with hp | hp | hp
  all_goals
    rw [hp] at hi
    cases i <;> cases hi
    simp only [sequencerRow, hp]

/-- The core's own step follows the row of the table. -/
theorem OwnStep.sequencerRow_eq {s t : State} {i : Instr} (hstep : OwnStep s i t) :
    (⟨i, t.ph, t.t.toNat, t.bi.toNat⟩ : SequencerRow) = sequencerRow s := by
  have hown := hstep.own
  have hph := hstep.ph_eq
  have hnext := hstep.next
  cases hstep.effect with
  | reset => cases hown
  | start => cases hown
  | startIgnored => cases hown
  | hold i p hp hr => exact sequencerRow_of_hold s i hown (by rw [hph p hp, hr])
  | overflow hl =>
    simp only [sequencerRow, hph .chk rfl]
    exact (if_pos hl).symm
  | accept hl =>
    simp only [sequencerRow, hph .chk rfl]
    exact (if_neg (Nat.not_le.2 hl)).symm
  | frame i b hp hb => simp [sequencerRow, hph _ hp, ← eq_frameOperation i s _ hp hnext]
  | unpack => simp [sequencerRow, hph .unpack rfl]
  | expand ht =>
    have hsucc := index_succ_toNat s.t ht.2
    simp only [sequencerRow, hph .expand rfl, hsucc]
    split
    · next hlast => rw [if_neg (by omega), hlast]
    · next hlast => rw [if_pos (by omega)]
  | load => simp [sequencerRow, hph .load rfl]
  | round i ht hp =>
    have hsucc := index_succ_toNat s.t ht
    have hi := eq_roundOperation i s _ hp hnext
    simp only [sequencerRow, hph _ hp, hsucc]
    split
    · next hlast =>
      rw [if_neg (by omega), hlast, hi, show s.t.toNat = 79 by omega]
      rfl
    · next hlast => rw [if_pos (by omega), hi]
  | accum hb =>
    have hsucc := blockIndex_succ_toNat s.bi s.nb hb
    simp only [sequencerRow, hph .accum rfl, hsucc]
    split
    · next hlast => rw [if_neg (by omega)]
    · next hlast => rw [if_pos (by omega)]
  | fmt => simp [sequencerRow, hph .fmt rfl]

/-- Settles O40: the core's own operation is there, and its effect is the row. -/
theorem sequencerFollowsItsTable : Obligations.SequencerFollowsItsTable := by
  intro s h hq
  obtain ⟨i, t, hown⟩ := h.controlInv.exists_ownStep hq
  exact ⟨i, t, hown.fetch, hown.step_eq hq, hown.sequencerRow_eq⟩

/-! ## The message and control flow (rule R176) -/

/-- The state with other message spaces bound and presented. -/
def State.withMessages (s : State) (m m' : Memory) : State := { s with msg := m, ports := { s.ports with msg := m' } }

/-- The control registers, and `LEN` and `ERR` with them. -/
def State.control (s : State) : Phase × BitVec 7 × BitVec 56 × BitVec 56 × BitVec 64 × Bool :=
  (s.ph, s.t, s.bi, s.nb, s.len, s.err)

theorem State.control_eq_iff (t' t : State) : t'.control = t.control ↔
    t'.ph = t.ph ∧ t'.t = t.t ∧ t'.bi = t.bi ∧ t'.nb = t.nb ∧ t'.len = t.len ∧ t'.err = t.err := by
  simp only [State.control, Prod.mk.injEq]

/-- A FRAME.* operation decides by its indexes, not by the block it forms. -/
theorem frameReading_withMessages (base n : Nat) (b b' : Block) (s t : State) (m m' : Memory)
    (h : frameReading base n b s = .next t) :
    ∃ t', frameReading base n b' (s.withMessages m m') = .next t' ∧ t'.control = t.control := by
  obtain ⟨hl, hi, rfl⟩ := frameReading_eq_next base n b s t h
  exact ⟨_, frameReading_next base n b' (s.withMessages m m') hl hi, rfl⟩

theorem roundStep_withMessages (lo : Nat) (f : Word → Word → Word → Word) (k : Word) (s t : State) (m m' : Memory)
    (h : roundStep lo f k s = .next t) :
    ∃ t', roundStep lo f k (s.withMessages m m') = .next t' ∧ t'.control = t.control := by
  by_cases hg : lo ≤ s.t.toNat ∧ s.t.toNat < lo + 20 ∧ s.t.toNat < 80
  · cases (roundStep_next lo f k s hg).symm.trans h
    exact ⟨_, roundStep_next lo f k (s.withMessages m m') hg, rfl⟩
  · cases (roundStep_refused lo f k s hg).symm.trans h

/-- An operation that goes on does so with any other message, to the same control registers. -/
theorem exec_withMessages (i : Instr) (s t : State) (m m' : Memory) (h : exec i s = .next t) :
    ∃ t', exec i (s.withMessages m m') = .next t' ∧ t'.control = t.control := by
  cases i with
  | reset | holdIdle | unpack | load | fmt | holdDone | holdError =>
    cases h
    exact ⟨_, rfl, rfl⟩
  | start len =>
    cases hr : s.ph.resting with
    | true =>
      cases (exec_start_of_resting len s hr).symm.trans h
      exact ⟨_, exec_start_of_resting len (s.withMessages m m') hr, rfl⟩
    | false =>
      cases (exec_start_of_busy len s hr).symm.trans h
      exact ⟨_, exec_start_of_busy len (s.withMessages m m') hr, rfl⟩
  | chk =>
    by_cases hl : lengthLimit ≤ s.len.toNat
    · cases (exec_chk_of_overflow s hl).symm.trans h
      exact ⟨_, exec_chk_of_overflow (s.withMessages m m') hl, rfl⟩
    · have hl := Nat.not_le.1 hl
      cases (exec_chk_of_accepted s hl).symm.trans h
      exact ⟨_, exec_chk_of_accepted (s.withMessages m m') hl, rfl⟩
  | frameFull => exact frameReading_withMessages _ 64 _ _ s t m m' h
  | frameFinal | frameFill | frameLen =>
    obtain ⟨hc, hread⟩ := guarded_eq_next h
    obtain ⟨t', hnext, hsame⟩ := frameReading_withMessages _ _ _ _ s t m m' hread
    exact ⟨t', (if_pos hc).trans hnext, hsame⟩
  | expand =>
    by_cases ht : 16 ≤ s.t.toNat ∧ s.t.toNat < 80
    · cases (exec_expand_next s ht).symm.trans h
      exact ⟨_, exec_expand_next (s.withMessages m m') ht, rfl⟩
    · cases ((execExpand_refused_iff s).2 ht).symm.trans h
  | roundCh => exact roundStep_withMessages 0 fCh k0 s t m m' h
  | roundPar1 => exact roundStep_withMessages 20 fPar k1 s t m m' h
  | roundMaj => exact roundStep_withMessages 40 fMaj k2 s t m m' h
  | roundPar2 => exact roundStep_withMessages 60 fPar k3 s t m m' h
  | accum =>
    obtain ⟨hb, hnext⟩ := guarded_eq_next h
    cases hnext
    exact ⟨_, exec_accum_next (s.withMessages m m') hb, rfl⟩

theorem fetch_withMessages (s : State) (m m' : Memory) : (s.withMessages m m').fetch = s.fetch := rfl

/-- Settles O44: the operation is fetched from `rst`, `start`, `len` and the control registers, and its guard reads only
control registers. -/
theorem controlDoesNotDependOnMessage : Obligations.ControlDoesNotDependOnMessage := by
  intro s t m m' hstep
  obtain ⟨i, hf, hexec⟩ := (step_next_iff s t).1 hstep
  obtain ⟨t', hexec', hsame⟩ := exec_withMessages i s.consume t m m' hexec
  have hstep' : step (s.withMessages m m') = .next t' := (step_of_fetch (s.withMessages m m') i hf).trans hexec'
  exact ⟨t', hstep', fetch_withMessages s m m', (State.control_eq_iff t' t).1 hsame⟩

/-! ## What the hash depends on (rules R170, R238) -/

/-- A block depends on no byte of the message space but those below `L`. -/
theorem block_congr (m m' : Memory) (L j : Nat) (h : ∀ p, p < L → Memory.read m p = Memory.read m' p) :
    block m L j = block m' L j := by
  have htail : ∀ k, k < tailLength L →
      Memory.read m (64 * fullBlocks L + k) = Memory.read m' (64 * fullBlocks L + k) := fun k hk =>
    h _ ((fullBlocks_add_cmp L k).1.2 hk)
  unfold block
  rw [finalBlock_congr m m' L htail, fillBlock_congr m m' L htail]
  split_ifs with hL hj
  · rfl
  · rw [fullBlock_congr m m' j fun k hk => h _ (by unfold fullBlocks at hj; omega)]
  all_goals rfl

theorem absorbFirst_congr (m m' : Memory) (L n : Nat) (h : ∀ p, p < L → Memory.read m p = Memory.read m' p) :
    absorbFirst m L n = absorbFirst m' L n := by
  induction n with
  | zero => rfl
  | succ n ih => simp only [absorbFirst, block_congr m m' L n h, ih]

theorem hash_of_overflow (m : Memory) (L : Nat) (h : lengthLimit ≤ L) : hash m L = .lengthOverflow := if_pos h

theorem hash_of_accepted (m : Memory) (L : Nat) (h : L < lengthLimit) :
    hash m L = .ok (format (absorbFirst m L (blockCount L))) := if_neg (Nat.not_le.2 h)

/-- Settles O10: block by block, and the two arms of the length test. -/
theorem hashUsesOnlyTheDeclaredBytes : Obligations.HashUsesOnlyTheDeclaredBytes := fun m m' L =>
  ⟨fun h => by rw [hash, hash, absorbFirst_congr m m' L _ h], hash_of_overflow m L,
    fun h => ⟨_, hash_of_accepted m L h⟩⟩

/-! ## The runs of a transaction (rule R177) -/

theorem State.ControlInv.kept_by_run {s t : State} (h : s.ControlInv) (hq : s.Quiet) (n : Nat)
    (hrun : Host.Core.run core n s = .next t) : t.ControlInv ∧ t.Quiet := by
  induction n generalizing s with
  | zero => cases hrun; exact ⟨h, hq⟩
  | succ n ih =>
    obtain ⟨u, hstep, hrest⟩ := run_core_succ_eq_next hrun
    obtain ⟨hinv, hquiet⟩ := h.kept_by_step hq hstep
    exact ih hinv hquiet hrest

/-- Any number of the core's own steps go on, each being one of those that are left. -/
theorem State.ControlInv.exists_run {s : State} (h : s.ControlInv) (hq : s.Quiet) (n : Nat) :
    ∃ t : State, Host.Core.run core n s = .next t ∧ t.stepsLeft = s.stepsLeft - n := by
  induction n generalizing s with
  | zero => exact ⟨s, rfl, rfl⟩
  | succ n ih =>
    obtain ⟨i, u, hu⟩ := h.exists_ownStep hq
    obtain ⟨t, hrun, hleft⟩ := ih (hu.effect.keeps_controlInv hu.ph_eq h) (hu.quiet hq)
    refine ⟨t, (run_core_succ n (hu.step_eq hq)).trans hrun, ?_⟩
    rw [hleft, hu.stepsLeft_eq h, Nat.sub_sub, Nat.add_comm]

/-- The core is busy as long as micro-operations are left. -/
theorem State.ControlInv.busy_run {s : State} (h : s.ControlInv) (hq : s.Quiet) (n : Nat) (hn : n < s.stepsLeft) :
    ∃ t : State, Host.Core.run core n s = .next t ∧ t.ph.resting = false := by
  obtain ⟨t, hrun, hleft⟩ := h.exists_run hq n
  refine ⟨t, hrun, ?_⟩
  rw [← Bool.not_eq_true, ← stepsLeft_eq_zero_iff]
  omega

/-! O51 to O53 speak of states that keep the whole of rule R40. A command may present a message space in any form, so a
transaction needs the same runs from the control invariants alone. -/

/-- UNPACK and the EXPAND steps, whatever the message (42_schedule.md rule R128). -/
theorem State.ControlInv.run_unpack {s : State} (h : s.ControlInv) (hq : s.Quiet) (hp : s.ph = .unpack) :
    Host.Core.run core 65 s = .next { s with w := expand (unpack s.blk), t := 80#7, ph := .load } := by
  have hstep : step s = .next { s with w := withWordBlock s.w (unpack s.blk), t := 16, ph := .expand } :=
    h.step_eq_exec hq hp .unpack rfl
  obtain ⟨hinv, hquiet⟩ := h.kept_by_step hq hstep
  refine (run_core_succ 64 hstep).trans (hinv.run_expand hquiet rfl (unpack s.blk) 63 (Nat.le_refl 16) rfl ?_)
  intro i hi hlt
  exact (withWordBlock_getElem_of_lt _ _ i hlt).trans (expand_getElem_of_lt _ i hlt).symm

/-- LOAD and the ROUND.* steps, whatever the message (43_compress.md rule R145). -/
theorem State.ControlInv.run_load {s : State} (h : s.ControlInv) (hq : s.Quiet) (hp : s.ph = .load) :
    Host.Core.run core 81 s = .next { s with s := compress s.h s.w, t := 80#7, ph := .accum } := by
  have hstep : step s = .next { s with s := s.h.toWorking, t := 0, ph := .round } :=
    h.step_eq_exec hq hp .load rfl
  obtain ⟨hinv, hquiet⟩ := h.kept_by_step hq hstep
  exact (run_core_succ 80 hstep).trans (hinv.run_round hquiet rfl 79 rfl rfl)

/-- The state after the 148 steps of a block `b`. -/
def State.blockAbsorbed (s : State) (b : Block) : State :=
  { s with
    h := absorb s.h b
    s := compress s.h (expand (unpack b))
    w := expand (unpack b)
    blk := b
    bi := s.bi + 1
    t := 80#7
    ph := if s.bi.toNat + 1 = s.nb.toNat then .fmt else .frame }

/-! The fields of `blockAbsorbed`. The state is opened first, for `rfl` would otherwise try to identify the two states and
compute a compression. -/

@[simp] theorem State.blockAbsorbed_h (s : State) (b : Block) : (s.blockAbsorbed b).h = absorb s.h b := by
  cases s; rfl
@[simp] theorem State.blockAbsorbed_digest (s : State) (b : Block) : (s.blockAbsorbed b).digest = s.digest := by
  cases s; rfl
@[simp] theorem State.blockAbsorbed_len (s : State) (b : Block) : (s.blockAbsorbed b).len = s.len := by
  cases s; rfl
@[simp] theorem State.blockAbsorbed_nb (s : State) (b : Block) : (s.blockAbsorbed b).nb = s.nb := by
  cases s; rfl
@[simp] theorem State.blockAbsorbed_bi (s : State) (b : Block) : (s.blockAbsorbed b).bi = s.bi + 1 := by
  cases s; rfl
@[simp] theorem State.blockAbsorbed_err (s : State) (b : Block) : (s.blockAbsorbed b).err = s.err := by
  cases s; rfl
@[simp] theorem State.blockAbsorbed_msg (s : State) (b : Block) : (s.blockAbsorbed b).msg = s.msg := by
  cases s; rfl
@[simp] theorem State.blockAbsorbed_ports (s : State) (b : Block) : (s.blockAbsorbed b).ports = s.ports := by
  cases s; rfl
@[simp] theorem State.blockAbsorbed_free (s : State) (b : Block) : (s.blockAbsorbed b).free = s.free := by
  cases s; rfl
@[simp] theorem State.blockAbsorbed_ph (s : State) (b : Block) :
    (s.blockAbsorbed b).ph = if s.bi.toNat + 1 = s.nb.toNat then .fmt else .frame := by
  cases s; rfl

/-- The 148 steps of a block, whatever the message (43_compress.md rules R146 to R148). -/
theorem State.ControlInv.run_block {s : State} (h : s.ControlInv) (hq : s.Quiet) (hp : s.ph = .frame) :
    ∃ b, block s.msg s.len.toNat s.bi.toNat = some b ∧ Host.Core.run core 148 s = .next (s.blockAbsorbed b) := by
  obtain ⟨b, hb, hstep⟩ := h.step_frame hq hp
  have hframe : Host.Core.run core 1 s = .next (s.leaveFrame b) := run_core_succ 0 hstep
  obtain ⟨hinv₁, hquiet₁⟩ := h.kept_by_run hq 1 hframe
  have hschedule := hinv₁.run_unpack hquiet₁ rfl
  obtain ⟨hinv₂, hquiet₂⟩ := hinv₁.kept_by_run hquiet₁ 65 hschedule
  have hcompress := hinv₂.run_load hquiet₂ rfl
  obtain ⟨hinv₃, hquiet₃⟩ := hinv₂.kept_by_run hquiet₂ 81 hcompress
  have haccum := hinv₃.step_accum hquiet₃ rfl
  refine ⟨b, hb, ?_⟩
  calc Host.Core.run core 148 s
      = Host.Core.run core 147 _ := run_core_add 1 147 hframe
    _ = Host.Core.run core 82 _ := run_core_add 65 82 hschedule
    _ = Host.Core.run core 1 _ := run_core_add 81 1 hcompress
    _ = .next (s.blockAbsorbed b) := run_core_succ 0 haccum

/-- The state after all the blocks of the message, when `b` is the last of them. -/
def State.allBlocksAbsorbed (s : State) (b : Block) : State :=
  { s with
    h := absorbFirst s.msg s.len.toNat s.nb.toNat
    s := compress (absorbFirst s.msg s.len.toNat (s.nb.toNat - 1)) (expand (unpack b))
    w := expand (unpack b)
    blk := b
    bi := s.nb
    t := 80#7
    ph := .fmt }

/-- A block that has been absorbed threads the State through it (43_compress.md rule R148). -/
theorem absorb_eq_absorbFirst {s : State} {b : Block} (hh : s.threaded)
    (hb : block s.msg s.len.toNat s.bi.toNat = some b) :
    absorb s.h b = absorbFirst s.msg s.len.toNat (s.bi.toNat + 1) := by
  rw [absorbFirst_succ _ _ _ _ hb, ← hh]

theorem threaded_blockAbsorbed {s : State} {b : Block} (hh : s.threaded)
    (hb : block s.msg s.len.toNat s.bi.toNat = some b) (hsucc : (s.bi + 1).toNat = s.bi.toNat + 1) :
    (s.blockAbsorbed b).threaded := by
  simp only [State.threaded, State.blockAbsorbed_h, State.blockAbsorbed_msg, State.blockAbsorbed_len,
    State.blockAbsorbed_bi, hsucc, absorb_eq_absorbFirst hh hb]

/-- What the last block leaves does not depend on the blocks before it, but through the message. -/
theorem allBlocksAbsorbed_blockAbsorbed (s : State) (b c : Block) :
    (s.blockAbsorbed b).allBlocksAbsorbed c = s.allBlocksAbsorbed c := by
  simp [State.allBlocksAbsorbed]

/-- ACCUM of the last block ends the loop over the blocks. -/
theorem blockAbsorbed_of_last {s : State} {b : Block} (hh : s.threaded)
    (hb : block s.msg s.len.toNat s.bi.toNat = some b) (hlast : s.bi.toNat + 1 = s.nb.toNat) :
    s.blockAbsorbed b = s.allBlocksAbsorbed b := by
  have hbi : s.bi + 1 = s.nb := by bv_omega
  have hpred : s.nb.toNat - 1 = s.bi.toNat := by omega
  have hstate : s.h = absorbFirst s.msg s.len.toNat s.bi.toNat := hh
  rw [State.blockAbsorbed, State.allBlocksAbsorbed, absorb_eq_absorbFirst hh hb, hlast, hbi, hpred, ← hstate,
    if_pos rfl]

/-- From block `BI` on, by induction on the blocks that are left. -/
theorem State.ControlInv.run_blocks {s : State} (h : s.ControlInv) (hq : s.Quiet) (hp : s.ph = .frame)
    (hh : s.threaded) (n : Nat) (hn : s.bi.toNat + (n + 1) = s.nb.toNat) :
    ∃ b, block s.msg s.len.toNat (s.nb.toNat - 1) = some b ∧
      Host.Core.run core (148 * (n + 1)) s = .next (s.allBlocksAbsorbed b) := by
  induction n generalizing s with
  | zero =>
    obtain ⟨b, hb, hrun⟩ := h.run_block hq hp
    rw [blockAbsorbed_of_last hh hb hn] at hrun
    exact ⟨b, by rwa [show s.nb.toNat - 1 = s.bi.toNat by omega], hrun⟩
  | succ n ih =>
    obtain ⟨b, hb, hrun⟩ := h.run_block hq hp
    obtain ⟨hinv, hquiet⟩ := h.kept_by_run hq _ hrun
    have hsucc : (s.bi + 1).toNat = s.bi.toNat + 1 := blockIndex_succ_toNat s.bi s.nb (by omega)
    have hphase : (s.blockAbsorbed b).ph = .frame := (s.blockAbsorbed_ph b).trans (if_neg (by omega))
    have hleft : (s.blockAbsorbed b).bi.toNat + (n + 1) = (s.blockAbsorbed b).nb.toNat := by
      rw [State.blockAbsorbed_bi, State.blockAbsorbed_nb, hsucc]
      omega
    obtain ⟨c, hc, hrest⟩ := ih hinv hquiet hphase (threaded_blockAbsorbed hh hb hsucc) hleft
    rw [State.blockAbsorbed_msg, State.blockAbsorbed_len, State.blockAbsorbed_nb] at hc
    refine ⟨c, hc, ?_⟩
    rw [Nat.mul_succ, Nat.add_comm, run_core_add 148 _ hrun, hrest, allBlocksAbsorbed_blockAbsorbed]

/-! ## An accepted transaction (rules R170, R177 (b), R179) -/

/-- What a transaction with the port lines `p` leaves, when `b` is the last block of the message: no register of the
state before it is in it. -/
def transactionEnd (p : Ports) (b : Block) (free : Nat) : State where
  h := absorbFirst p.msg p.len.toNat (blockCount p.len.toNat)
  s := compress (absorbFirst p.msg p.len.toNat (blockCount p.len.toNat - 1)) (expand (unpack b))
  w := expand (unpack b)
  blk := b
  digest := format (absorbFirst p.msg p.len.toNat (blockCount p.len.toNat))
  len := p.len
  nb := BitVec.ofNat 56 (blockCount p.len.toNat)
  bi := BitVec.ofNat 56 (blockCount p.len.toNat)
  t := 80#7
  ph := .done
  err := false
  msg := p.msg
  ports := { p with rst := false, start := false }
  free := free

/-- The state in which CHK has accepted an issued command. -/
def State.lengthAccepted (s : State) : State :=
  { s.commandAccepted with
    h := iv, nb := BitVec.ofNat 56 (blockCount s.ports.len.toNat), bi := 0, ph := .frame }

theorem step_commandAccepted (s : State) (hl : s.ports.len.toNat < lengthLimit) :
    step s.commandAccepted = .next s.lengthAccepted :=
  (s.commandAccepted_controlInv.step_eq_exec (p := .chk) s.commandAccepted_quiet rfl .chk rfl).trans
    (exec_chk_of_accepted _ hl)

theorem State.Commanded.run_accepted {s : State} (h : s.Commanded) (hl : s.ports.len.toNat < lengthLimit) :
    ∃ b, block s.ports.msg s.ports.len.toNat (blockCount s.ports.len.toNat - 1) = some b ∧
      Host.Core.run core (1 + (2 + 148 * blockCount s.ports.len.toNat)) s =
        .next (transactionEnd s.ports b s.free) := by
  have hchk := step_commandAccepted s hl
  obtain ⟨hinv, hquiet⟩ := s.commandAccepted_controlInv.kept_by_step s.commandAccepted_quiet hchk
  obtain ⟨n, hn⟩ : ∃ n, blockCount s.ports.len.toNat = n + 1 := Nat.exists_eq_add_one.2 (blockCount_pos _)
  have hnb : s.lengthAccepted.nb.toNat = blockCount s.ports.len.toNat := blockCount_toNat _ hl
  obtain ⟨b, hb, hrun⟩ := hinv.run_blocks hquiet rfl rfl n (by rw [hnb, hn]; exact Nat.zero_add _)
  obtain ⟨hinv', hquiet'⟩ := hinv.kept_by_run hquiet _ hrun
  have hfmt := (hinv'.step_eq_exec (p := .fmt) hquiet' rfl .fmt rfl).trans (exec_fmt_next _)
  rw [hnb] at hb
  refine ⟨b, hb, ?_⟩
  calc Host.Core.run core (1 + (2 + 148 * blockCount s.ports.len.toNat)) s
      = Host.Core.run core (148 * (n + 1) + 1 + 1 + 1) s := by congr 1; omega
    _ = Host.Core.run core (148 * (n + 1) + 1 + 1) s.commandAccepted := run_core_succ _ h.step_start
    _ = Host.Core.run core (148 * (n + 1) + 1) s.lengthAccepted := run_core_succ _ hchk
    _ = Host.Core.run core 1 (s.lengthAccepted.allBlocksAbsorbed b) := run_core_add _ 1 hrun
    _ = .next { s.lengthAccepted.allBlocksAbsorbed b with
          digest := format (s.lengthAccepted.allBlocksAbsorbed b).h, ph := .done } := run_core_succ 0 hfmt
    _ = .next (transactionEnd s.ports b s.free) := by
        simp only [State.allBlocksAbsorbed, hnb]
        rfl

/-- From START to the last micro-operation the core is busy. -/
theorem State.Commanded.busy_run {s : State} (h : s.Commanded) (hl : s.ports.len.toNat < lengthLimit) (k : Nat)
    (hk : 1 ≤ k) (hlast : k < 1 + (2 + 148 * blockCount s.ports.len.toNat)) :
    ∃ u : State, Host.Core.run core k s = .next u ∧ u.ph.resting = false := by
  obtain ⟨n, rfl⟩ := Nat.exists_eq_add_of_le' hk
  have hsteps : s.commandAccepted.stepsLeft = 2 + 148 * blockCount s.ports.len.toNat := if_neg (Nat.not_le.2 hl)
  rw [run_core_succ n h.step_start]
  exact s.commandAccepted_controlInv.busy_run s.commandAccepted_quiet n (by omega)

/-- Settles O54: the end state holds the State threaded through all blocks, and at every step before it micro-operations
are left. -/
theorem transactionComputesHash : Obligations.TransactionComputesHash := by
  intro s h hl
  obtain ⟨b, -, hrun⟩ := h.run_accepted hl
  exact ⟨⟨_, hrun, rfl, rfl, rfl, hash_of_accepted _ _ hl, rfl⟩, h.busy_run hl⟩

/-- Settles O56: the end state is a function of the port lines. -/
theorem transactionsAreIndependent : Obligations.TransactionsAreIndependent := by
  intro s s' h h' hports hl
  obtain ⟨b, hb, hrun⟩ := h.run_accepted hl
  obtain ⟨b', hb', hrun'⟩ := h'.run_accepted (hports ▸ hl)
  rw [hports] at hb' hrun'
  obtain rfl : b = b' := Option.some.inj (hb.symm.trans hb')
  exact ⟨_, _, hrun, hrun', rfl⟩

/-! ## A refused transaction (rule R177 (a)) -/

theorem run_core_of_step_eq_self {s : State} (h : step s = .next s) (n : Nat) : Host.Core.run core n s = .next s := by
  induction n with
  | zero => rfl
  | succ n ih => rw [run_core_succ n h, ih]

/-- Settles O55: START, the raise of CHK, and HOLD in `ERROR`. -/
theorem refusedTransactionEndsInError : Obligations.RefusedTransactionEndsInError := by
  intro s h hl n
  have hchk : step s.commandAccepted = .next s.commandAccepted.raiseLengthOverflow :=
    step_chk_of_overflow s.commandAccepted rfl rfl rfl hl
  have hhold : step s.commandAccepted.raiseLengthOverflow = .next s.commandAccepted.raiseLengthOverflow :=
    restingStateIsStable _ ⟨rfl, rfl⟩ rfl (by simp) (by simp [State.indexLive])
  rw [Nat.add_comm, run_core_succ (n + 1) h.step_start, run_core_succ n hchk, run_core_of_step_eq_self hhold n]
  rfl

end Sys2Proof.Machine
end

section
/-! PROOFS of the statements of 70_reset_and_hazards.md: what RESET leaves (rule R230), and its priority over everything
else a step could do (rule R231). -/

namespace Sys2Proof.Machine

theorem exec_reset_next (s : State) : exec .reset s = .next s.toReset := rfl

theorem State.toReset_ports_show_idle (s : State) : s.toReset.statusPort = 0#2 ∧ s.toReset.errPort = 0#1 :=
  let ⟨hidle, _, _, _, _, herr⟩ := statusCodesFollowPhase s.toReset
  ⟨hidle.2 s.toReset_ph, herr.2 s.toReset_err⟩

/-- Settles O16: RESET has no guard, and the two ports follow `PH` and `ERR`. -/
theorem resetGoesToIdle : Obligations.ResetGoesToIdle := by
  intro s
  obtain ⟨hstatus, herr⟩ := s.toReset_ports_show_idle
  exact ⟨_, exec_reset_next s, s.toReset_ph, s.toReset_err, hstatus, herr, s.toReset_ports,
    fun a => congrArg (Memory.read · a) s.toReset_msg⟩

/-- Settles O37: `rst` is asked first, before the refusals and before `start`, and the sampled `start` is gone. -/
theorem resetHasPriority : Obligations.ResetHasPriority := by
  intro s hr
  have hstep : step s = .next s.consume.toReset := step_of_rst s hr
  have hstart : s.consume.toReset.ports.start = false := by rw [State.toReset_ports, State.consume_start]
  exact ⟨_, hstep, hstep.trans (exec_reset_next s.consume).symm, State.toReset_ph _, State.toReset_err _, hstart⟩

end Sys2Proof.Machine
end
